-- ==== Sys2Proof/Word.lean ====
section
/-! DEFINITION. The word, byte and string types of the block (00_scope.md R8, 30_encoding.md R60). -/

namespace Sys2Proof

/-- `Word16`: one instruction word, 16 bits (R8, R60). -/
abbrev Word := BitVec 16

/-- `Byte`: 8 bits (R8). -/
abbrev Byte := BitVec 8

/-- One ASCII character, by its code 0 to 127 (R8). PRESUMED that ASCII is the 7-bit code, log entry 13; safe. -/
abbrev AsciiChar := Fin 128

/-- `String`: a finite sequence of ASCII characters (R8). -/
abbrev AsciiString := List AsciiChar

end Sys2Proof
end

