-- ==== Sys2Proof/Syntax.lean ====
section
/-! DEFINITION. The interface values of the block (10_state.md R25 to R31): the operand enumerations, the
typed instruction, the operands of the constructors, the resolver of the serializer and the error. -/

namespace Sys2Proof

/-- R25, patterns in R74. -/
inductive JumpCondition where
  | always | notX | xPostDec | notY | yPostDec | xNotEqualY | pin | notOsre
  deriving DecidableEq, Repr

/-- R25, patterns in R75. -/
inductive WaitSource where
  | gpio | pin | irq
  deriving DecidableEq, Repr

/-- R25, patterns in R76. -/
inductive InSource where
  | pins | x | y | null | isr | osr
  deriving DecidableEq, Repr

/-- R25, patterns in R77. -/
inductive OutDestination where
  | pins | x | y | null | pinDirs | pc | isr | exec
  deriving DecidableEq, Repr

/-- R25, patterns in R78. -/
inductive MovDestination where
  | pins | x | y | exec | pc | isr | osr
  deriving DecidableEq, Repr

/-- R25, patterns in R79. -/
inductive MovOperation where
  | none | invert | bitReverse
  deriving DecidableEq, Repr

/-- R25, patterns in R80. -/
inductive MovSource where
  | pins | x | y | null | status | isr | osr
  deriving DecidableEq, Repr

/-- R25, patterns in R81. -/
inductive SetDestination where
  | pins | x | y | pinDirs
  deriving DecidableEq, Repr

/-- `Addr5` (R26): a jump target, 0 to 31. -/
abbrev Addr5 := BitVec 5

/-- `Index5` (R26): a wait or irq index, the raw 5-bit field, 0 to 31 (R83). -/
abbrev Index5 := BitVec 5

/-- `Data5` (R26): the data of a Set, 0 to 31. -/
abbrev Data5 := BitVec 5

/-- `Bit1` (R26): the polarity of a Wait, 0 or 1. -/
abbrev Bit1 := BitVec 1

/-- `BitCount` (R26), the logical value: 0 to 32, the wider of the two ranges R26 gives. A well-formed
instruction holds 1 to 32 (WellFormed.lean), which is what the constructors store (R103). DESIGN CHOICE, log
entry 10; unsafe for ill-formed instructions only. -/
abbrev BitCount := Fin 33

/-- The typed instruction, nine cases, each with its own fields in the order of R27. -/
inductive Instr where
  | jump (condition : JumpCondition) (target : Addr5)
  | wait (polarity : Bit1) (source : WaitSource) (index : Index5)
  | shiftIn (source : InSource) (bitCount : BitCount)
  | shiftOut (destination : OutDestination) (bitCount : BitCount)
  | push (ifFull : Bool) (block : Bool)
  | pull (ifEmpty : Bool) (block : Bool)
  | move (destination : MovDestination) (operation : MovOperation) (source : MovSource)
  | irq (clear : Bool) (wait : Bool) (index : Index5)
  | set (destination : SetDestination) (data : Data5)
  deriving DecidableEq, Repr

/-- The operands of a `Construct<Case>` call (R100, R101 to R109): numeric operands are unchecked `Nat`,
enumerators are values of their closed enumeration (R110), flags are `Bool`. -/
inductive Operands where
  | jump (condition : JumpCondition) (target : Nat)
  | wait (polarity : Nat) (source : WaitSource) (index : Nat)
  | shiftIn (source : InSource) (bitCount : Nat)
  | shiftOut (destination : OutDestination) (bitCount : Nat)
  | push (ifFull : Bool) (block : Bool)
  | pull (ifEmpty : Bool) (block : Bool)
  | move (destination : MovDestination) (operation : MovOperation) (source : MovSource)
  | irq (clear : Bool) (wait : Bool) (index : Nat)
  | set (destination : SetDestination) (data : Nat)
  deriving DecidableEq, Repr

/-- The Irq operation that the helper of R112 turns into flags. -/
inductive IrqOperation where
  | clear | wait | set
  deriving DecidableEq, Repr

/-- `Resolver` (R183). `map` is `Map(f)`: the table of the total function `f`, one text for each of the 32
values of `Addr5`, at the index of the target. DEDUCED, log entry 8; unsafe for a caller's function that is not
total. -/
inductive Resolver where
  | none
  | fixed (text : AsciiString)
  | map (table : Vector AsciiString 32)
  deriving DecidableEq, Repr

/-- The five error kinds (60_exceptions.md R210). -/
inductive ErrorKind where
  | outOfRange
  | unrecognizedOpcode
  | unrecognizedValue
  | bufferTooSmall
  | unsupported
  deriving DecidableEq, Repr

/-- The fields an error can name (R210, R211, R213). Their spellings are `Field.name`. -/
inductive Field where
  | jumpTarget
  | waitPolarity
  | waitIndex
  | shiftInBitCount
  | shiftOutBitCount
  | irqIndex
  | setData
  | waitSource
  | shiftInSource
  | moveDestination
  | moveOperation
  | moveSource
  | setDestination
  | jumpCondition
  | shiftOutDestination
  | pushUnused
  | pullUnused
  | irqUnused
  | tag
  | buffer
  | delaySideSet
  deriving DecidableEq, Repr

/-- The error value (R31): the kind, the offending field and the offending number or pattern. -/
structure Error where
  kind : ErrorKind
  field : Field
  value : Nat
  deriving DecidableEq, Repr

end Sys2Proof
end

