-- ==== Sys2Proof/Machine/Flags.lean ====
section
/-! DEFINITION. The flag bits that instructions carry. The block itself has no flag and no condition code
(10_state.md R23); what is computed here is read out of, or put into, an instruction's own fields. -/

namespace Sys2Proof

/-- The relative-addressing flag of an index, its bit 4 (30_encoding.md R83). -/
def relFlag (index : Index5) : Bool := index.getLsbD 4

/-- The IRQ number of an index, `index[3:0]` (R83). -/
def irqNumber (index : Index5) : BitVec 4 := index.extractLsb' 0 4

/-- The operation a pair of Irq flags stands for in text: clear before wait, set when neither is set
(44_assembly_text.md R191). -/
def irqOperationOf (clear wait : Bool) : IrqOperation :=
  if clear then .clear else if wait then .wait else .set

/-- The `clear` flag of an Irq operation (40_construction.md R112). -/
def IrqOperation.clearFlag : IrqOperation → Bool
  | .clear => true
  | .wait => false
  | .set => false

/-- The `wait` flag of an Irq operation (R112). -/
def IrqOperation.waitFlag : IrqOperation → Bool
  | .clear => false
  | .wait => true
  | .set => false

end Sys2Proof
end

