-- ==== Sys2Proof/Config.lean ====
section
/-! DEFINITION. The parameters of the block (00_scope.md R6), fixed when it is built (10_state.md R24),
and the one free value of the model. The default values stand in Machine/Tokens.lean. -/

namespace Sys2Proof

/-- `BITCOUNT_CONVENTION` (R6, decision D4): what a constructor does with a bit count of 0. -/
inductive BitCountConvention where
  | oneTo32
  | zeroAlias32
  deriving DecidableEq, Repr

/-- `UNUSED_BITS_POLICY` (R6, decision D6): what the decoder does with the bits of no field. -/
inductive UnusedBitsPolicy where
  | ignore
  | reject
  deriving DecidableEq, Repr

/-- The tokens of `JumpCondition` (44_assembly_text.md R181). `Always` has no token. -/
structure JumpConditionTokens where
  notX : AsciiString
  xPostDec : AsciiString
  notY : AsciiString
  yPostDec : AsciiString
  xNotEqualY : AsciiString
  pin : AsciiString
  notOsre : AsciiString
  deriving DecidableEq, Repr

/-- The tokens of `WaitSource` (R181). -/
structure WaitSourceTokens where
  gpio : AsciiString
  pin : AsciiString
  irq : AsciiString
  deriving DecidableEq, Repr

/-- The tokens of `InSource` (R181). -/
structure InSourceTokens where
  pins : AsciiString
  x : AsciiString
  y : AsciiString
  null : AsciiString
  isr : AsciiString
  osr : AsciiString
  deriving DecidableEq, Repr

/-- The tokens of `OutDestination` (R181). -/
structure OutDestinationTokens where
  pins : AsciiString
  x : AsciiString
  y : AsciiString
  null : AsciiString
  pinDirs : AsciiString
  pc : AsciiString
  isr : AsciiString
  exec : AsciiString
  deriving DecidableEq, Repr

/-- The tokens of `MovDestination` (R181). -/
structure MovDestinationTokens where
  pins : AsciiString
  x : AsciiString
  y : AsciiString
  exec : AsciiString
  pc : AsciiString
  isr : AsciiString
  osr : AsciiString
  deriving DecidableEq, Repr

/-- The tokens of `MovOperation` (R181). `None` has no token. -/
structure MovOperationTokens where
  invert : AsciiString
  bitReverse : AsciiString
  deriving DecidableEq, Repr

/-- The tokens of `MovSource` (R181). -/
structure MovSourceTokens where
  pins : AsciiString
  x : AsciiString
  y : AsciiString
  null : AsciiString
  status : AsciiString
  isr : AsciiString
  osr : AsciiString
  deriving DecidableEq, Repr

/-- The tokens of `SetDestination` (R181). -/
structure SetDestinationTokens where
  pins : AsciiString
  x : AsciiString
  y : AsciiString
  pinDirs : AsciiString
  deriving DecidableEq, Repr

/-- `TOKENS` (R6, R181, decision D12): one token for each enumerator of each enumeration. -/
structure Tokens where
  jumpCondition : JumpConditionTokens
  waitSource : WaitSourceTokens
  inSource : InSourceTokens
  outDestination : OutDestinationTokens
  movDestination : MovDestinationTokens
  movOperation : MovOperationTokens
  movSource : MovSourceTokens
  setDestination : SetDestinationTokens
  deriving DecidableEq, Repr

/-- The block's configuration: its three named parameters (R6, R24). -/
structure Config where
  bitCount : BitCountConvention
  unusedBits : UnusedBitsPolicy
  tokens : Tokens
  deriving DecidableEq, Repr

/-- FREE VALUE (20_memory.md R53: "each byte read is any value that one of the racing writers, or the
earlier content, left there"). Which of the candidates a race shows or leaves at a byte, by the number of the
race and the index of the byte. It has no body: nothing can prove which one it is. DESIGN
CHOICE of form, log entry 5; safe. -/
opaque Config.raceChoice : Nat → Nat → Nat

end Sys2Proof
end

