-- ==== Sys2Proof/Machine/Tokens.lean ====
section
/-! DEFINITION. Strings written as Lean literals (00_scope.md R8), and the default values of the parameters: the
token table of 44_assembly_text.md R181 and the defaults of 00_scope.md R6. -/

namespace Sys2Proof

/-- The ASCII characters of a list of characters, in order. -/
def asciiChars : List Char → AsciiString
  | [] => []
  | c :: rest => if h : c.toNat < 128 then ⟨c.toNat, h⟩ :: asciiChars rest else asciiChars rest

/-- The string (R8) that a Lean literal spells. Characters outside ASCII are left out; no literal of the model
has one (log entry 13). -/
def ascii (literal : String) : AsciiString := asciiChars literal.toList

/-- The same string as Lean's text, for reading it. -/
def stringOf (text : AsciiString) : String := String.ofList (text.map (fun c => Char.ofNat c.val))

/-- The default `TOKENS` (R181). -/
def Tokens.default : Tokens where
  jumpCondition :=
    { notX := ascii "!X", xPostDec := ascii "X--", notY := ascii "!Y", yPostDec := ascii "Y--",
      xNotEqualY := ascii "X!=Y", pin := ascii "PIN", notOsre := ascii "!OSRE" }
  waitSource := { gpio := ascii "GPIO", pin := ascii "PIN", irq := ascii "IRQ" }
  inSource :=
    { pins := ascii "PINS", x := ascii "X", y := ascii "Y", null := ascii "NULL", isr := ascii "ISR",
      osr := ascii "OSR" }
  outDestination :=
    { pins := ascii "PINS", x := ascii "X", y := ascii "Y", null := ascii "NULL",
      pinDirs := ascii "PINDIRS", pc := ascii "PC", isr := ascii "ISR", exec := ascii "EXEC" }
  movDestination :=
    { pins := ascii "PINS", x := ascii "X", y := ascii "Y", exec := ascii "EXEC", pc := ascii "PC",
      isr := ascii "ISR", osr := ascii "OSR" }
  movOperation := { invert := ascii "!", bitReverse := ascii "::" }
  movSource :=
    { pins := ascii "PINS", x := ascii "X", y := ascii "Y", null := ascii "NULL",
      status := ascii "STATUS", isr := ascii "ISR", osr := ascii "OSR" }
  setDestination :=
    { pins := ascii "PINS", x := ascii "X", y := ascii "Y", pinDirs := ascii "PINDIRS" }

/-- The default configuration (R6): `OneTo32`, `Ignore` and the table of R181. -/
def Config.default : Config where
  bitCount := .oneTo32
  unusedBits := .ignore
  tokens := Tokens.default

end Sys2Proof
end

