-- ==== Sys2Proof/Machine/Operands.lean ====
section
/-! DEFINITION. The per-variant constructors: operand validation (40_construction.md R100 to R112), with the
spellings and codes of the errors (60_exceptions.md R210, R211, R213). -/

namespace Sys2Proof

/-- The numeric code of an error kind (R210). Code 0 means no error and is no kind's. -/
def ErrorKind.code : ErrorKind → Nat
  | .outOfRange => 1
  | .unrecognizedOpcode => 2
  | .unrecognizedValue => 3
  | .bufferTooSmall => 4
  | .unsupported => 5

/-- The field names that errors carry (R210, R211, R213; 42_decode.md R144, R147 for the two lookups that
never fail). -/
def Field.name : Field → AsciiString
  | .jumpTarget => ascii "Jump.target"
  | .waitPolarity => ascii "Wait.polarity"
  | .waitIndex => ascii "Wait.index"
  | .shiftInBitCount => ascii "ShiftIn.bitCount"
  | .shiftOutBitCount => ascii "ShiftOut.bitCount"
  | .irqIndex => ascii "Irq.index"
  | .setData => ascii "Set.data"
  | .waitSource => ascii "Wait.source"
  | .shiftInSource => ascii "ShiftIn.source"
  | .moveDestination => ascii "Move.destination"
  | .moveOperation => ascii "Move.operation"
  | .moveSource => ascii "Move.source"
  | .setDestination => ascii "Set.destination"
  | .jumpCondition => ascii "Jump.condition"
  | .shiftOutDestination => ascii "ShiftOut.destination"
  | .pushUnused => ascii "Push.unused"
  | .pullUnused => ascii "Pull.unused"
  | .irqUnused => ascii "Irq.unused"
  | .tag => ascii "tag"
  | .buffer => ascii "buffer"
  | .delaySideSet => ascii "delaySideSet"

/-- `raise OutOfRange(field, value)`. -/
def outOfRange {α : Type} (field : Field) (value : Nat) : Except Error α :=
  .error { kind := .outOfRange, field := field, value := value }

/-- `CheckDelaySideSet(d)` (R111), then `k`. -/
def afterDelaySideSet {α : Type} (d : Nat) (k : Except Error α) : Except Error α :=
  if d ≠ 0 then .error { kind := .unsupported, field := .delaySideSet, value := d } else k

/-- The bit count that is stored (R103): the check of the convention, and 0 as 32 where it is accepted. -/
def storedBitCount (convention : BitCountConvention) (field : Field) (n : Nat) :
    Except Error BitCount :=
  match convention with
  | .oneTo32 => if n = 0 ∨ n > 32 then outOfRange field n else .ok (Fin.ofNat 33 n)
  | .zeroAlias32 =>
    if n > 32 then outOfRange field n else .ok (Fin.ofNat 33 (if n = 0 then 32 else n))

/-- `ConstructJump` (R101). -/
def constructJump (condition : JumpCondition) (target delaySideSet : Nat) : Except Error Instr :=
  afterDelaySideSet delaySideSet
    (if target > 31 then outOfRange .jumpTarget target
     else .ok (.jump condition (BitVec.ofNat 5 target)))

/-- `ConstructWait` (R102). -/
def constructWait (polarity : Nat) (source : WaitSource) (index delaySideSet : Nat) :
    Except Error Instr :=
  afterDelaySideSet delaySideSet
    (if polarity > 1 then outOfRange .waitPolarity polarity
     else if index > 31 then outOfRange .waitIndex index
     else .ok (.wait (BitVec.ofNat 1 polarity) source (BitVec.ofNat 5 index)))

/-- `ConstructShiftIn` (R103). -/
def constructShiftIn (convention : BitCountConvention) (source : InSource)
    (bitCount delaySideSet : Nat) : Except Error Instr :=
  afterDelaySideSet delaySideSet
    ((storedBitCount convention .shiftInBitCount bitCount).map (Instr.shiftIn source))

/-- `ConstructShiftOut` (R104). -/
def constructShiftOut (convention : BitCountConvention) (destination : OutDestination)
    (bitCount delaySideSet : Nat) : Except Error Instr :=
  afterDelaySideSet delaySideSet
    ((storedBitCount convention .shiftOutBitCount bitCount).map (Instr.shiftOut destination))

/-- `ConstructPush` (R105). -/
def constructPush (ifFull block : Bool) (delaySideSet : Nat) : Except Error Instr :=
  afterDelaySideSet delaySideSet (.ok (.push ifFull block))

/-- `ConstructPull` (R106). -/
def constructPull (ifEmpty block : Bool) (delaySideSet : Nat) : Except Error Instr :=
  afterDelaySideSet delaySideSet (.ok (.pull ifEmpty block))

/-- `ConstructMove` (R107). -/
def constructMove (destination : MovDestination) (operation : MovOperation) (source : MovSource)
    (delaySideSet : Nat) : Except Error Instr :=
  afterDelaySideSet delaySideSet (.ok (.move destination operation source))

/-- `ConstructIrq` (R108): the index is the raw 5-bit field (decision D9). -/
def constructIrq (clear wait : Bool) (index delaySideSet : Nat) : Except Error Instr :=
  afterDelaySideSet delaySideSet
    (if index > 31 then outOfRange .irqIndex index
     else .ok (.irq clear wait (BitVec.ofNat 5 index)))

/-- `ConstructSet` (R109). -/
def constructSet (destination : SetDestination) (data delaySideSet : Nat) : Except Error Instr :=
  afterDelaySideSet delaySideSet
    (if data > 31 then outOfRange .setData data
     else .ok (.set destination (BitVec.ofNat 5 data)))

/-- The constructor of each variant (R100). -/
def construct (config : Config) (operands : Operands) (delaySideSet : Nat) : Except Error Instr :=
  match operands with
  | .jump condition target => constructJump condition target delaySideSet
  | .wait polarity source index => constructWait polarity source index delaySideSet
  | .shiftIn source bitCount => constructShiftIn config.bitCount source bitCount delaySideSet
  | .shiftOut destination bitCount =>
    constructShiftOut config.bitCount destination bitCount delaySideSet
  | .push ifFull block => constructPush ifFull block delaySideSet
  | .pull ifEmpty block => constructPull ifEmpty block delaySideSet
  | .move destination operation source => constructMove destination operation source delaySideSet
  | .irq clear wait index => constructIrq clear wait index delaySideSet
  | .set destination data => constructSet destination data delaySideSet

/-- The operands of `ConstructIrq` that the helper of R112 makes from an Irq operation. -/
def IrqOperation.operands (op : IrqOperation) (index : Nat) : Operands :=
  .irq op.clearFlag op.waitFlag index

end Sys2Proof
end

