-- ==== Sys2Proof/WellFormed.lean ====
section
/-! DEFINITION. Which terms of `Instr` are structurally legal instructions (10_state.md R28). The types of
the fields keep every other range; what is left to check is that a bit count is not 0 (R26, R103). -/

namespace Sys2Proof

/-- R28: every numeric field is within its range. Only the two bit counts can be outside theirs. -/
def Instr.wellFormed : Instr → Bool
  | .jump _ _ => true
  | .wait _ _ _ => true
  | .shiftIn _ n => n != 0
  | .shiftOut _ n => n != 0
  | .push _ _ => true
  | .pull _ _ => true
  | .move _ _ _ => true
  | .irq _ _ _ => true
  | .set _ _ => true

end Sys2Proof
end

