-- ==== Sys2Proof/Decode.lean ====
section
/-! DEFINITION. The instruction encoding (30_encoding.md), the decoder (42_decode.md) and, after it, the
encoder (41_encode.md). Byte order: 20_memory.md R43. -/

namespace Sys2Proof

/-! ### The layout: bytes, fields, patterns -/

/-- `w[7:0]`, the byte at buffer index 0 (R43). -/
def lowByte (w : Word) : Byte := w.extractLsb' 0 8

/-- `w[15:8]`, the byte at buffer index 1 (R43). -/
def highByte (w : Word) : Byte := w.extractLsb' 8 8

/-- `w = {buf[1], buf[0]}` (R43). -/
def wordOfBytes (b0 b1 : Byte) : Word := b1 ++ b0

/-- The opcode tag, bits 15:13 (R60, R141). -/
def tagOf (w : Word) : BitVec 3 := w.extractLsb' 13 3

/-- The delay/side-set field, bits 12:8 (R60, R64). -/
def delaySideSetOf (w : Word) : BitVec 5 := w.extractLsb' 8 5

/-- The 3-bit operand field in bits 7:5 (R65, R67, R68, R71, R73). -/
def field75 (w : Word) : BitVec 3 := w.extractLsb' 5 3

/-- The 5-bit operand field in bits 4:0 (R65 to R70, R72, R73). -/
def field40 (w : Word) : BitVec 5 := w.extractLsb' 0 5

/-- `JumpCondition`, bits 7:5 (R74). -/
def JumpCondition.pattern : JumpCondition → BitVec 3
  | .always => 0b000#3
  | .notX => 0b001#3
  | .xPostDec => 0b010#3
  | .notY => 0b011#3
  | .yPostDec => 0b100#3
  | .xNotEqualY => 0b101#3
  | .pin => 0b110#3
  | .notOsre => 0b111#3

/-- `WaitSource`, bits 6:5 (R75); 0b11 is unassigned (R84). -/
def WaitSource.pattern : WaitSource → BitVec 2
  | .gpio => 0b00#2
  | .pin => 0b01#2
  | .irq => 0b10#2

/-- `InSource`, bits 7:5 (R76); 0b100 and 0b101 are unassigned (R84). -/
def InSource.pattern : InSource → BitVec 3
  | .pins => 0b000#3
  | .x => 0b001#3
  | .y => 0b010#3
  | .null => 0b011#3
  | .isr => 0b110#3
  | .osr => 0b111#3

/-- `OutDestination`, bits 7:5 (R77). -/
def OutDestination.pattern : OutDestination → BitVec 3
  | .pins => 0b000#3
  | .x => 0b001#3
  | .y => 0b010#3
  | .null => 0b011#3
  | .pinDirs => 0b100#3
  | .pc => 0b101#3
  | .isr => 0b110#3
  | .exec => 0b111#3

/-- `MovDestination`, bits 7:5 (R78); 0b011 is unassigned (R84). -/
def MovDestination.pattern : MovDestination → BitVec 3
  | .pins => 0b000#3
  | .x => 0b001#3
  | .y => 0b010#3
  | .exec => 0b100#3
  | .pc => 0b101#3
  | .isr => 0b110#3
  | .osr => 0b111#3

/-- `MovOperation`, bits 4:3 (R79); 0b11 is unassigned (R84). -/
def MovOperation.pattern : MovOperation → BitVec 2
  | .none => 0b00#2
  | .invert => 0b01#2
  | .bitReverse => 0b10#2

/-- `MovSource`, bits 2:0 (R80); 0b100 is unassigned (R84). -/
def MovSource.pattern : MovSource → BitVec 3
  | .pins => 0b000#3
  | .x => 0b001#3
  | .y => 0b010#3
  | .null => 0b011#3
  | .status => 0b101#3
  | .isr => 0b110#3
  | .osr => 0b111#3

/-- `SetDestination`, bits 7:5 (R81); 0b011, 0b101, 0b110 and 0b111 are unassigned (R84). -/
def SetDestination.pattern : SetDestination → BitVec 3
  | .pins => 0b000#3
  | .x => 0b001#3
  | .y => 0b010#3
  | .pinDirs => 0b100#3

/-- Every enumerator (R25). -/
def JumpCondition.all : List JumpCondition :=
  [.always, .notX, .xPostDec, .notY, .yPostDec, .xNotEqualY, .pin, .notOsre]

/-- Every enumerator (R25). -/
def WaitSource.all : List WaitSource := [.gpio, .pin, .irq]

/-- Every enumerator (R25). -/
def InSource.all : List InSource := [.pins, .x, .y, .null, .isr, .osr]

/-- Every enumerator (R25). -/
def OutDestination.all : List OutDestination :=
  [.pins, .x, .y, .null, .pinDirs, .pc, .isr, .exec]

/-- Every enumerator (R25). -/
def MovDestination.all : List MovDestination := [.pins, .x, .y, .exec, .pc, .isr, .osr]

/-- Every enumerator (R25). -/
def MovOperation.all : List MovOperation := [.none, .invert, .bitReverse]

/-- Every enumerator (R25). -/
def MovSource.all : List MovSource := [.pins, .x, .y, .null, .status, .isr, .osr]

/-- Every enumerator (R25). -/
def SetDestination.all : List SetDestination := [.pins, .x, .y, .pinDirs]

/-- The variant index (10_state.md R30). It names the case and is no part of the word. -/
def Instr.variantIndex : Instr → BitVec 4
  | .jump _ _ => 0
  | .wait _ _ _ => 1
  | .shiftIn _ _ => 2
  | .shiftOut _ _ => 3
  | .push _ _ => 4
  | .pull _ _ => 5
  | .move _ _ _ => 6
  | .irq _ _ _ => 7
  | .set _ _ => 8

/-! ### The decoder -/

/-- `raise UnrecognizedValue(field, value)`. -/
def unrecognizedValue {α : Type} (field : Field) (value : Nat) : Except Error α :=
  .error { kind := .unrecognizedValue, field := field, value := value }

/-- `Lookup(E, field, p)` (42_decode.md section 2): the enumerator whose pattern is `p`, or
`UnrecognizedValue(field, p)` when `p` is unassigned (R154). -/
def lookup {ε : Type} {n : Nat} (all : List ε) (pattern : ε → BitVec n) (field : Field)
    (p : BitVec n) : Except Error ε :=
  match all.find? (fun e => pattern e == p) with
  | some e => .ok e
  | none => unrecognizedValue field p.toNat

/-- The logical bit count of a count field: 0 stands for 32 (R82). -/
def bitCountOfField (f : BitVec 5) : Nat := if f = 0 then 32 else f.toNat

/-- `CheckUnusedBits(field, v)` (R153), then `k`: only under `Reject`. -/
def afterUnusedBits {α : Type} (config : Config) (field : Field) (v : Nat) (k : Except Error α) :
    Except Error α :=
  match config.unusedBits with
  | .ignore => k
  | .reject => if v ≠ 0 then unrecognizedValue field v else k

/-- `CheckDelaySideSetBits(w)` (R153), then `k`: only under `Reject`. -/
def afterDelaySideSetBits {α : Type} (config : Config) (w : Word) (k : Except Error α) :
    Except Error α :=
  match config.unusedBits with
  | .ignore => k
  | .reject => afterDelaySideSet (delaySideSetOf w).toNat k

/-- `UnpackJump` (R144). -/
def unpackJump (w : Word) : Except Error Instr := do
  let c ← lookup JumpCondition.all JumpCondition.pattern .jumpCondition (field75 w)
  constructJump c (field40 w).toNat 0

/-- `UnpackWait` (R145). -/
def unpackWait (w : Word) : Except Error Instr := do
  let s ← lookup WaitSource.all WaitSource.pattern .waitSource (w.extractLsb' 5 2)
  constructWait (w.extractLsb' 7 1).toNat s (field40 w).toNat 0

/-- `UnpackShiftIn` (R146). -/
def unpackShiftIn (config : Config) (w : Word) : Except Error Instr := do
  let s ← lookup InSource.all InSource.pattern .shiftInSource (field75 w)
  constructShiftIn config.bitCount s (bitCountOfField (field40 w)) 0

/-- `UnpackShiftOut` (R147). -/
def unpackShiftOut (config : Config) (w : Word) : Except Error Instr := do
  let d ← lookup OutDestination.all OutDestination.pattern .shiftOutDestination (field75 w)
  constructShiftOut config.bitCount d (bitCountOfField (field40 w)) 0

/-- `UnpackPush` (R148). -/
def unpackPush (config : Config) (w : Word) : Except Error Instr :=
  afterUnusedBits config .pushUnused (field40 w).toNat
    (constructPush (w.getLsbD 6) (w.getLsbD 5) 0)

/-- `UnpackPull` (R149). -/
def unpackPull (config : Config) (w : Word) : Except Error Instr :=
  afterUnusedBits config .pullUnused (field40 w).toNat
    (constructPull (w.getLsbD 6) (w.getLsbD 5) 0)

/-- `UnpackMove` (R150): the first unassigned field in the order destination, operation, source is the
one that is named (R154). -/
def unpackMove (w : Word) : Except Error Instr := do
  let d ← lookup MovDestination.all MovDestination.pattern .moveDestination (field75 w)
  let o ← lookup MovOperation.all MovOperation.pattern .moveOperation (w.extractLsb' 3 2)
  let s ← lookup MovSource.all MovSource.pattern .moveSource (w.extractLsb' 0 3)
  constructMove d o s 0

/-- `UnpackIrq` (R151). -/
def unpackIrq (config : Config) (w : Word) : Except Error Instr :=
  afterUnusedBits config .irqUnused (w.extractLsb' 7 1).toNat
    (constructIrq (w.getLsbD 6) (w.getLsbD 5) (field40 w).toNat 0)

/-- `UnpackSet` (R152). -/
def unpackSet (w : Word) : Except Error Instr := do
  let d ← lookup SetDestination.all SetDestination.pattern .setDestination (field75 w)
  constructSet d (field40 w).toNat 0

/-- The dispatch of `Decode` on the primary tag, with the Push/Pull disambiguation (R142) and the
defensive arm (R143), which no 16-bit word reaches (R86). DESIGN CHOICE that the tag is a `Nat`, log entry 15;
safe. -/
def dispatch (config : Config) (tag : Nat) (w : Word) : Except Error Instr :=
  match tag with
  | 0 => unpackJump w
  | 1 => unpackWait w
  | 2 => unpackShiftIn config w
  | 3 => unpackShiftOut config w
  | 4 => if w.getLsbD 7 then unpackPull config w else unpackPush config w
  | 5 => unpackMove w
  | 6 => unpackIrq config w
  | 7 => unpackSet w
  | t => .error { kind := .unrecognizedOpcode, field := .tag, value := t }

/-- `Decode(w)` (R140). -/
def decode (config : Config) (w : Word) : Except Error Instr :=
  afterDelaySideSetBits config w (dispatch config (tagOf w).toNat w)

/-- The dispatch output `dec_variant` as a function of the word (R158). It is valid only when the decode
succeeds. -/
def dispatchIndex (w : Word) : BitVec 4 :=
  match (tagOf w).toNat with
  | 0 => 0
  | 1 => 1
  | 2 => 2
  | 3 => 3
  | 4 => if w.getLsbD 7 then 5 else 4
  | 5 => 6
  | 6 => 7
  | _ => 8

/-- A row of the opcode table (30_encoding.md R89): the variant index, and its `match` and `mask`. -/
structure OpcodeRow where
  variant : BitVec 4
  bits : Word
  mask : Word
  deriving DecidableEq, Repr

/-- The opcode table (R89). -/
def opcodeTable : List OpcodeRow :=
  [{ variant := 0, bits := 0x0000#16, mask := 0xE000#16 },
   { variant := 1, bits := 0x2000#16, mask := 0xE000#16 },
   { variant := 2, bits := 0x4000#16, mask := 0xE000#16 },
   { variant := 3, bits := 0x6000#16, mask := 0xE000#16 },
   { variant := 4, bits := 0x8000#16, mask := 0xE080#16 },
   { variant := 5, bits := 0x8080#16, mask := 0xE080#16 },
   { variant := 6, bits := 0xA000#16, mask := 0xE000#16 },
   { variant := 7, bits := 0xC000#16, mask := 0xE000#16 },
   { variant := 8, bits := 0xE000#16, mask := 0xE000#16 }]

/-- A word selects a row when `(w & mask) = match` (R89). -/
def OpcodeRow.selects (row : OpcodeRow) (w : Word) : Bool := (w &&& row.mask) == row.bits

/-- The decoder on bytes, the first at the lowest address: the word is in the first two (R43, R171), fewer
give `BufferTooSmall` (R214), and later ones are not read (R173). -/
def decodeBytes (config : Config) : List Byte → Except Error Instr
  | b0 :: b1 :: _ => decode config (wordOfBytes b0 b1)
  | [_] => .error { kind := .bufferTooSmall, field := .buffer, value := 1 }
  | [] => .error { kind := .bufferTooSmall, field := .buffer, value := 0 }

/-- The host's question: what the decoder, in the default configuration (R6), reads from the first `nbits`
bits of `w`, every higher bit of the 16-bit instruction being 0. -/
def decodeTableWord (nbits w : Nat) : Option Instr :=
  match decodeBytes Config.default
      [lowByte (BitVec.ofNat 16 (w % 2 ^ nbits)), highByte (BitVec.ofNat 16 (w % 2 ^ nbits))] with
  | .ok i => some i
  | .error _ => none

/-! ### The encoder -/

/-- A field's positioned pattern: the field at bit position `lo` of a word (R63). -/
def positioned {n : Nat} (lo : Nat) (field : BitVec n) : Word := field.setWidth 16 <<< lo

/-- A flag's positioned pattern: `true` is 1 (00_scope.md R8). -/
def positionedFlag (lo : Nat) (flag : Bool) : Word := positioned lo (BitVec.ofBool flag)

/-- The count field of a logical bit count: 32 is stored as 0 (R82). -/
def fieldOfBitCount (n : BitCount) : BitVec 5 := if n.val = 32 then 0 else BitVec.ofNat 5 n.val

/-- `PackJump` (R121). -/
def packJump (condition : JumpCondition) (target : Addr5) : Word :=
  0x0000#16 ||| positioned 5 condition.pattern ||| positioned 0 target

/-- `PackWait` (R122). -/
def packWait (polarity : Bit1) (source : WaitSource) (index : Index5) : Word :=
  0x2000#16 ||| positioned 7 polarity ||| positioned 5 source.pattern ||| positioned 0 index

/-- `PackShiftIn` (R123). -/
def packShiftIn (source : InSource) (bitCount : BitCount) : Word :=
  0x4000#16 ||| positioned 5 source.pattern ||| positioned 0 (fieldOfBitCount bitCount)

/-- `PackShiftOut` (R124). -/
def packShiftOut (destination : OutDestination) (bitCount : BitCount) : Word :=
  0x6000#16 ||| positioned 5 destination.pattern ||| positioned 0 (fieldOfBitCount bitCount)

/-- `PackPush` (R125): bit 7 is 0. -/
def packPush (ifFull block : Bool) : Word :=
  0x8000#16 ||| positionedFlag 6 ifFull ||| positionedFlag 5 block

/-- `PackPull` (R126): bit 7 is 1. -/
def packPull (ifEmpty block : Bool) : Word :=
  0x8000#16 ||| 0x0080#16 ||| positionedFlag 6 ifEmpty ||| positionedFlag 5 block

/-- `PackMove` (R127). -/
def packMove (destination : MovDestination) (operation : MovOperation) (source : MovSource) : Word :=
  0xA000#16 ||| positioned 5 destination.pattern ||| positioned 3 operation.pattern
    ||| positioned 0 source.pattern

/-- `PackIrq` (R128): bit 7 is 0. -/
def packIrq (clear wait : Bool) (index : Index5) : Word :=
  0xC000#16 ||| positionedFlag 6 clear ||| positionedFlag 5 wait ||| positioned 0 index

/-- `PackSet` (R129). -/
def packSet (destination : SetDestination) (data : Data5) : Word :=
  0xE000#16 ||| positioned 5 destination.pattern ||| positioned 0 data

/-- `Encode(i)` (R120). -/
def encode : Instr → Word
  | .jump condition target => packJump condition target
  | .wait polarity source index => packWait polarity source index
  | .shiftIn source bitCount => packShiftIn source bitCount
  | .shiftOut destination bitCount => packShiftOut destination bitCount
  | .push ifFull block => packPush ifFull block
  | .pull ifEmpty block => packPull ifEmpty block
  | .move destination operation source => packMove destination operation source
  | .irq clear wait index => packIrq clear wait index
  | .set destination data => packSet destination data

/-- The bytes of an instruction in a buffer (R43): low byte first. -/
def encodeBytes (i : Instr) : List Byte := [lowByte (encode i), highByte (encode i)]

/-- The bits of the word that belong to a field of the variant, or to its tag and Pull bit
(30_encoding.md R85): all but 12:8, and but 4:0 of Push and Pull and bit 7 of Irq. -/
def usedBits : Instr → Word
  | .jump _ _ => 0xE0FF#16
  | .wait _ _ _ => 0xE0FF#16
  | .shiftIn _ _ => 0xE0FF#16
  | .shiftOut _ _ => 0xE0FF#16
  | .push _ _ => 0xE0E0#16
  | .pull _ _ => 0xE0E0#16
  | .move _ _ _ => 0xE0FF#16
  | .irq _ _ _ => 0xE07F#16
  | .set _ _ => 0xE0FF#16

end Sys2Proof
end

