-- ==== Sys2Proof/Machine/State.lean ====
section
/-! DEFINITION. The state of the model. The block holds no architectural state (10_state.md R20): State is its
input and output ports (R32, R33), the caller's buffer (20_memory.md R40), the parameters it was built with
(R24) and the race of 20_memory.md R53. -/

namespace Sys2Proof.Machine

/-- Why a step stops. "No error is a hardware fault of the block" (60_exceptions.md R220): the five error
kinds are results, never faults. -/
inductive Fault where
  /-- Raised by the byte primitives (`ByteRead`, `ByteWrite`, 00_scope.md R9) outside the buffer, where no byte
  exists (20_memory.md R41). Safe: the length is checked first (43_buffers.md R172), so no step reaches it. -/
  | noSuchByte (index : Nat)
  deriving DecidableEq, Repr

/-- Why an instruction has no meaning. -/
inductive Refusal where
  /-- Raised by an arm of `exec` that has no meaning yet; no arm is left that raises it. Safe. -/
  | notModelled (mnemonic : String)
  deriving DecidableEq, Repr

/-- A call: the operation and the values on its input ports (10_state.md R32). `decodeFromBuffer` and
`encodeToBuffer` act on the buffer of the state. -/
inductive Call where
  | construct (operands : Operands) (delaySideSet : Nat)
  | encode (instr : Instr)
  | decode (word : Word)
  | encodeToBuffer (instr : Instr)
  | decodeFromBuffer
  | toAssemblyText (instr : Instr) (resolver : Resolver)
  deriving DecidableEq, Repr

/-- What an operation delivers (00_scope.md R10, 10_state.md R32): the value of `Ok`, or the error of `Err`. -/
inductive Result where
  /-- `Ok(Instruction)` of a constructor or of `DecodeFromBuffer`. -/
  | instruction (instr : Instr)
  /-- `enc_word` of `Encode`. -/
  | word (word : Word)
  /-- `dec_inst` and `dec_variant` of `Decode`, with `dec_ok = 1` (R33). -/
  | decoded (instr : Instr) (variant : BitVec 4)
  /-- `Ok(buf)` of `EncodeToBuffer`: the bytes stand in the state's buffer. -/
  | written
  /-- `Ok(String)` of `ToAssemblyText`. -/
  | text (text : AsciiString)
  /-- `Err(error)`; for `Decode`, `dec_err` with `dec_ok = 0` (R33). -/
  | error (error : Error)
  deriving DecidableEq, Repr

/-- The caller's buffer (00_scope.md R8, 20_memory.md R41): `size` bytes at the indices 0 to `size - 1`, held
as the list of those that differ from `Memory.unlisted`. -/
structure Memory where
  size : Nat
  cells : List Host.Cell
  deriving DecidableEq, Repr

/-- What a byte of the buffer that is not listed holds: 0. It is a way to write the buffer down, not a claim
about bytes nobody wrote: every buffer of `size` bytes has exactly one canonical form (log entry 4). -/
def Memory.unlisted : Byte := 0

/-- The canonical form: indices strictly rise, each is inside the buffer, and no listed byte is `unlisted`. -/
abbrev Memory.wf (m : Memory) : Prop :=
  m.cells.Pairwise (fun c d => c.1 < d.1) ∧ ∀ c ∈ m.cells, c.1 < m.size ∧ c.2 ≠ Memory.unlisted

/-- The state: one call going in, one result coming out. -/
structure State where
  /-- The parameters the block was built with (00_scope.md R6, 10_state.md R24). -/
  config : Config
  /-- The input ports: the operation in progress, if any (R32, R33). -/
  call : Option Call
  /-- The caller's buffer (20_memory.md R40). -/
  buffer : Memory
  /-- The words that other callers are writing into the same buffer meanwhile (20_memory.md R53). -/
  racers : List Word
  /-- The number of races so far: the model's own counter, argument of `Config.raceChoice` (DESIGN CHOICE, log
  entry 5). -/
  draws : Nat
  /-- The output ports: what the last operation delivered, if any (R32, R33). -/
  result : Option Result
  deriving DecidableEq, Repr

/-- The machine after reset (70_reset_and_hazards.md R240, R241): no operation, no output, the parameters at
their defaults (R6), and no buffer supplied (DESIGN CHOICE, log entry 4). -/
def State.reset : State where
  config := Config.default
  call := none
  buffer := { size := 0, cells := [] }
  racers := []
  draws := 0
  result := none

end Sys2Proof.Machine
end

