-- ==== Sys2Proof/Machine/Text.lean ====
section
/-! DEFINITION. The textual serializer, `ToAssemblyText` (44_assembly_text.md). -/

namespace Sys2Proof

/-! ### Numbers and tokens -/

/-- The ASCII digit of a number below 10. -/
def asciiDigit (d : Nat) : AsciiChar := Fin.ofNat 128 (48 + d)

/-- The decimal digits of `n`, most significant first, in at most `fuel` digits. -/
def decimalDigits : Nat → Nat → AsciiString
  | 0, _ => []
  | fuel + 1, n =>
    if n < 10 then [asciiDigit n] else decimalDigits fuel (n / 10) ++ [asciiDigit (n % 10)]

/-- `Dec(n)`: decimal ASCII, with no sign, no leading zeros and no prefix (R182). -/
def decimal (n : Nat) : AsciiString := decimalDigits (n + 1) n

/-- `TOKENS(c)`, with its space (R184): `Always` has no token. -/
def JumpConditionTokens.render (t : JumpConditionTokens) : JumpCondition → AsciiString
  | .always => []
  | .notX => t.notX ++ ascii " "
  | .xPostDec => t.xPostDec ++ ascii " "
  | .notY => t.notY ++ ascii " "
  | .yPostDec => t.yPostDec ++ ascii " "
  | .xNotEqualY => t.xNotEqualY ++ ascii " "
  | .pin => t.pin ++ ascii " "
  | .notOsre => t.notOsre ++ ascii " "

/-- `TOKENS(s)` (R181). -/
def WaitSourceTokens.render (t : WaitSourceTokens) : WaitSource → AsciiString
  | .gpio => t.gpio
  | .pin => t.pin
  | .irq => t.irq

/-- `TOKENS(s)` (R181). -/
def InSourceTokens.render (t : InSourceTokens) : InSource → AsciiString
  | .pins => t.pins
  | .x => t.x
  | .y => t.y
  | .null => t.null
  | .isr => t.isr
  | .osr => t.osr

/-- `TOKENS(d)` (R181). -/
def OutDestinationTokens.render (t : OutDestinationTokens) : OutDestination → AsciiString
  | .pins => t.pins
  | .x => t.x
  | .y => t.y
  | .null => t.null
  | .pinDirs => t.pinDirs
  | .pc => t.pc
  | .isr => t.isr
  | .exec => t.exec

/-- `TOKENS(d)` (R181). -/
def MovDestinationTokens.render (t : MovDestinationTokens) : MovDestination → AsciiString
  | .pins => t.pins
  | .x => t.x
  | .y => t.y
  | .exec => t.exec
  | .pc => t.pc
  | .isr => t.isr
  | .osr => t.osr

/-- `TOKENS(o)`, with its space (R190): `None` has no token. -/
def MovOperationTokens.render (t : MovOperationTokens) : MovOperation → AsciiString
  | .none => []
  | .invert => t.invert ++ ascii " "
  | .bitReverse => t.bitReverse ++ ascii " "

/-- `TOKENS(s)` (R181). -/
def MovSourceTokens.render (t : MovSourceTokens) : MovSource → AsciiString
  | .pins => t.pins
  | .x => t.x
  | .y => t.y
  | .null => t.null
  | .status => t.status
  | .isr => t.isr
  | .osr => t.osr

/-- `TOKENS(d)` (R181). -/
def SetDestinationTokens.render (t : SetDestinationTokens) : SetDestination → AsciiString
  | .pins => t.pins
  | .x => t.x
  | .y => t.y
  | .pinDirs => t.pinDirs

/-- `Target(t, r)` (R183): the resolver's text verbatim, or the decimal number. -/
def targetText (r : Resolver) (target : Addr5) : AsciiString :=
  match r with
  | .none => decimal target.toNat
  | .fixed text => text
  | .map table => table.get target.toFin

/-- `IrqIndexText(x)` (R193). -/
def irqIndexText (index : Index5) : AsciiString :=
  decimal (irqNumber index).toNat ++ (if relFlag index then ascii " rel" else [])

/-- The block keyword, one of exactly two spellings (R188). -/
def blockText (block : Bool) : AsciiString := if block then ascii "block" else ascii "noblock"

/-- The keyword of an Irq operation (R191). -/
def irqOperationText : IrqOperation → AsciiString
  | .clear => ascii "clear"
  | .wait => ascii "wait"
  | .set => ascii "set"

/-! ### Per-variant rendering -/

/-- R184. -/
def textJump (t : Tokens) (r : Resolver) (condition : JumpCondition) (target : Addr5) : AsciiString :=
  ascii "jmp " ++ t.jumpCondition.render condition ++ targetText r target

/-- R185: the index is always rendered (decision D11). -/
def textWait (t : Tokens) (polarity : Bit1) (source : WaitSource) (index : Index5) : AsciiString :=
  ascii "wait " ++ decimal polarity.toNat ++ ascii " " ++ t.waitSource.render source ++ ascii " " ++
    (if source = .irq then irqIndexText index else decimal index.toNat)

/-- R186. -/
def textShiftIn (t : Tokens) (source : InSource) (bitCount : BitCount) : AsciiString :=
  ascii "in " ++ t.inSource.render source ++ ascii ", " ++ decimal bitCount.val

/-- R187. -/
def textShiftOut (t : Tokens) (destination : OutDestination) (bitCount : BitCount) : AsciiString :=
  ascii "out " ++ t.outDestination.render destination ++ ascii ", " ++ decimal bitCount.val

/-- R188. -/
def textPush (ifFull block : Bool) : AsciiString :=
  ascii "push " ++ (if ifFull then ascii "iffull " else []) ++ blockText block

/-- R189. -/
def textPull (ifEmpty block : Bool) : AsciiString :=
  ascii "pull " ++ (if ifEmpty then ascii "ifempty " else []) ++ blockText block

/-- R190: one space after the operation token (decision D13). -/
def textMove (t : Tokens) (destination : MovDestination) (operation : MovOperation)
    (source : MovSource) : AsciiString :=
  ascii "mov " ++ t.movDestination.render destination ++ ascii ", " ++ t.movOperation.render operation ++
    t.movSource.render source

/-- R191: clear takes precedence over wait, set is the default. -/
def textIrq (clear wait : Bool) (index : Index5) : AsciiString :=
  ascii "irq " ++ irqOperationText (irqOperationOf clear wait) ++ ascii " " ++ irqIndexText index

/-- R192. -/
def textSet (t : Tokens) (destination : SetDestination) (data : Data5) : AsciiString :=
  ascii "set " ++ t.setDestination.render destination ++ ascii ", " ++ decimal data.toNat

/-- `ToAssemblyText(i, r)` (R180). -/
def toAssemblyText (t : Tokens) (r : Resolver) : Instr → AsciiString
  | .jump condition target => textJump t r condition target
  | .wait polarity source index => textWait t polarity source index
  | .shiftIn source bitCount => textShiftIn t source bitCount
  | .shiftOut destination bitCount => textShiftOut t destination bitCount
  | .push ifFull block => textPush ifFull block
  | .pull ifEmpty block => textPull ifEmpty block
  | .move destination operation source => textMove t destination operation source
  | .irq clear wait index => textIrq clear wait index
  | .set destination data => textSet t destination data

end Sys2Proof
end

