-- ==== Sys2Proof/Machine/Ops.lean ====
section
/-! DEFINITION. The named operations over the buffer and the ports: byte and word access (20_memory.md,
43_buffers.md), delivering a result or an error (00_scope.md R10, 60_exceptions.md R217), what an instruction
does under each operation (10_state.md R32), the wires (R33) and the reset input (70_reset_and_hazards.md). -/

namespace Sys2Proof.Machine

/-- What a step answers. -/
abbrev Outcome := Host.Outcome State Fault Refusal

/-! ### The buffer -/

/-- The byte at an index, from the list of cells. -/
def byteIn : List Host.Cell → Nat → Byte
  | [], _ => Memory.unlisted
  | (a, b) :: rest, i => if a = i then b else byteIn rest i

/-- The list of cells with the byte at one index replaced, in canonical form. -/
def cellsWith : List Host.Cell → Nat → Byte → List Host.Cell
  | [], i, b => if b = Memory.unlisted then [] else [(i, b)]
  | (a, c) :: rest, i, b =>
    if a < i then (a, c) :: cellsWith rest i b
    else
      let above := if a = i then rest else (a, c) :: rest
      if b = Memory.unlisted then above else (i, b) :: above

/-- `ByteRead(buf, i)` (00_scope.md R9); no byte exists outside the buffer (20_memory.md R41). -/
def Memory.read (m : Memory) (i : Nat) : Option Byte :=
  if i < m.size then some (byteIn m.cells i) else none

/-- `ByteWrite(buf, i, b)` (R9): the buffer is never grown (43_buffers.md R173). -/
def Memory.write (m : Memory) (i : Nat) (b : Byte) : Option Memory :=
  if i < m.size then some { m with cells := cellsWith m.cells i b } else none

/-- The buffer that holds the given bytes, the first at index 0. -/
def Memory.ofBytes (bytes : List Byte) : Memory where
  size := bytes.length
  cells := cellsFrom 0 bytes
where
  /-- The cells of the bytes that stand at index `k` and up. -/
  cellsFrom : Nat → List Byte → List Host.Cell
    | _, [] => []
    | k, b :: rest =>
      if b = Memory.unlisted then cellsFrom (k + 1) rest else (k, b) :: cellsFrom (k + 1) rest

/-- The bytes of the buffer, `buf[0]` first. -/
def Memory.bytes (m : Memory) : List Byte := (List.range m.size).map (byteIn m.cells)

/-- The two byte writes of `EncodeToBuffer` (43_buffers.md R170, 20_memory.md R43), both or none (R48). -/
def Memory.writeWord (m : Memory) (w : Word) : Option Memory :=
  (m.write 0 (lowByte w)).bind (fun m' => m'.write 1 (highByte w))

/-- The word `{buf[1], buf[0]}` (20_memory.md R43). -/
def Memory.readWord (m : Memory) : Option Word :=
  match m.read 0, m.read 1 with
  | some b0, some b1 => some (wordOfBytes b0 b1)
  | _, _ => none

/-! ### Ending an operation -/

/-- The state in which an operation has ended with a result: the call is over (R249, 10_state.md R34). -/
def State.finish (r : Result) (s : State) : State := { s with call := none, result := some r }

/-- The state with another buffer. -/
def State.setBuffer (m : Memory) (s : State) : State := { s with buffer := m }

/-- The operation ends with `Ok` (00_scope.md R10). -/
def deliver (r : Result) (s : State) : Outcome := .next (s.finish r)

/-- TAKING AN ERROR: the operation ends with `Err(e)`, handed to the caller as its result. It writes nothing,
saves nothing, takes no vector and changes no mode (60_exceptions.md R217, R222). There is no return from it
(R223). DEDUCED that it is a next state, log entry 9; safe. -/
def raise (e : Error) (s : State) : Outcome := .next (s.finish (.error e))

/-- `BufferTooSmall("buffer", len(buf))` (43_buffers.md R170, R171). -/
def bufferTooSmall (size : Nat) : Error :=
  { kind := .bufferTooSmall, field := .buffer, value := size }

/-! ### Races on a shared buffer -/

/-- A byte of a word as it stands in the buffer: `w[7:0]` at index 0, `w[15:8]` at index 1 (20_memory.md R43). -/
def byteOf (i : Nat) (w : Word) : Byte := if i = 0 then lowByte w else highByte w

/-- Byte `i` as a race shows or leaves it: a free choice among that byte of `w`, of the other words, and of every
racing writer's word (R53). -/
def racedByte (s : State) (i : Nat) (w : Word) (others : List Word) : Byte :=
  let candidates := (w :: others ++ s.racers).map (byteOf i)
  candidates.getD (Config.raceChoice s.draws i % candidates.length) (byteOf i w)

/-- The word as a race shows or leaves it, each byte on its own; with no racing writer it is `w` (R53). -/
def racedWord (s : State) (w : Word) (others : List Word) : Word :=
  match s.racers with
  | [] => w
  | _ :: _ => wordOfBytes (racedByte s 0 w others) (racedByte s 1 w others)

/-- The state after a race: it is counted, so that the next one is free again. -/
def State.countDraw (s : State) : State :=
  match s.racers with
  | [] => s
  | _ :: _ => { s with draws := s.draws + 1 }

/-- What a raced read leaves in the buffer: each byte of the word is the earlier content or what a racing writer
left there, free of what the read found. The read itself writes nothing (R49); the racing writers do. With none,
nothing changes. DESIGN CHOICE, log entry 5; safe. -/
def State.settle (earlier : Word) (s : State) : State :=
  match s.racers with
  | [] => s
  | _ :: _ =>
    match s.buffer.writeWord (racedWord s earlier []) with
    | some m => (s.setBuffer m).countDraw
    | none => s

/-- `EncodeToBuffer` of a packed word (43_buffers.md R170): the length is checked first (R172). In a race each
byte left is this word's, the earlier content or a racing writer's (R53; DESIGN CHOICE of form, log entry 5;
safe). -/
def storeWord (w : Word) (s : State) : Outcome :=
  if s.buffer.size < 2 then raise (bufferTooSmall s.buffer.size) s
  else
    match s.buffer.readWord.bind (fun earlier => s.buffer.writeWord (racedWord s w [earlier])) with
    | some m => deliver .written (s.setBuffer m).countDraw
    | none => .fault (.noSuchByte 1)

/-! ### From a call to its instruction -/

/-- How a call comes by the instruction it is about. -/
inductive Obtained where
  | instr (i : Instr) (s : State)
  | err (e : Error) (s : State)
  | stop (f : Fault)

/-- The instruction of a constructor's or the decoder's answer, or its error. -/
def Obtained.ofAnswer (answer : Except Error Instr) (s : State) : Obtained :=
  match answer with
  | .ok i => .instr i s
  | .error e => .err e s

/-- The instruction a call is about: built by its constructor (40_construction.md R100), decoded from
`dec_word` (42_decode.md R140) or from the buffer (43_buffers.md R171, length first: R172), or given on the
`enc_inst` port. A raced read finds any of the racing values (20_memory.md R53), and what the race then leaves in
the buffer is free again (`State.settle`: DESIGN CHOICE, log entry 5; safe). -/
def obtain (call : Call) (s : State) : Obtained :=
  match call with
  | .construct operands delaySideSet =>
    .ofAnswer (Sys2Proof.construct s.config operands delaySideSet) s
  | .decode w => .ofAnswer (Sys2Proof.decode s.config w) s
  | .decodeFromBuffer =>
    if s.buffer.size < 2 then .err (bufferTooSmall s.buffer.size) s
    else
      match s.buffer.readWord with
      | some w => .ofAnswer (Sys2Proof.decode s.config (racedWord s w [])) (s.countDraw.settle w)
      | none => .stop (.noSuchByte 1)
  | .encode i => .instr i s
  | .encodeToBuffer i => .instr i s
  | .toAssemblyText i _ => .instr i s

/-! ### What an instruction does under each operation -/

/-- The resolver on the serializer's port; absent for every other call (R183). -/
def State.resolver (s : State) : Resolver :=
  match s.call with
  | some (.toAssemblyText _ r) => r
  | _ => .none

/-- What an instruction does under the operation in progress (10_state.md R32), from its value `i`, its
variant index, its packed word and its text. With no operation in progress the block does nothing (R20).
DESIGN CHOICE, log entries 3 and 11; `DecodeFromBuffer` delivers no index: DEDUCED, log entry 7; safe. -/
def perform (i : Instr) (variant : BitVec 4) (w : Word) (text : AsciiString) (s : State) : Outcome :=
  match s.call with
  | none => .next s
  | some (.construct _ _) => deliver (.instruction i) s
  | some (.encode _) => deliver (.word w) s
  | some (.decode _) => deliver (.decoded i variant) s
  | some (.encodeToBuffer _) => storeWord w s
  | some .decodeFromBuffer => deliver (.instruction i) s
  | some (.toAssemblyText _ _) => deliver (.text text) s

/-! ### The wires and the reset input -/

/-- The decoder's output wires (10_state.md R33): `dec_variant` and `dec_inst` are valid when `dec_ok = 1`,
`dec_err` when `dec_ok = 0`; an invalid wire is absent. -/
structure DecoderPorts where
  decOk : Bool
  decVariant : Option (BitVec 4)
  decInst : Option Instr
  decErr : Option Error
  deriving DecidableEq, Repr

/-- The decoder as wires (R33): a function of `dec_word` only. -/
def decoderPorts (config : Config) (decWord : Word) : DecoderPorts :=
  match Sys2Proof.decode config decWord with
  | .ok i =>
    { decOk := true, decVariant := some (dispatchIndex decWord), decInst := some i, decErr := none }
  | .error e => { decOk := false, decVariant := none, decInst := none, decErr := some e }

/-- The encoder as wires (R33): `enc_word` is a function of `enc_inst` only. -/
def encodePort (encInst : Instr) : Word := Sys2Proof.encode encInst

/-- A reset input, if the block has one (70_reset_and_hazards.md R240, R241): an operation in progress and its
outputs are dropped, the parameters and the caller's buffer are not touched. DESIGN CHOICE, log entry 12;
safe. -/
def applyReset (s : State) : State := { s with call := none, result := none }

end Sys2Proof.Machine
end

