-- ==== Sys2Proof/Machine/Data.lean ====
section
/-! DEFINITION. The meanings of mov and set. -/

namespace Sys2Proof.Machine

/-- mov: R107 and R150 deliver it with index 6 (R30), R127 packs it, R190 renders it. -/
def execMove (destination : MovDestination) (operation : MovOperation) (source : MovSource)
    (s : State) : Outcome :=
  perform (.move destination operation source) 6 (packMove destination operation source)
    (textMove s.config.tokens destination operation source) s

/-- set: R109 and R152 deliver it with index 8, R129 packs it, R192 renders it. -/
def execSet (destination : SetDestination) (data : Data5) (s : State) : Outcome :=
  perform (.set destination data) 8 (packSet destination data)
    (textSet s.config.tokens destination data) s

end Sys2Proof.Machine
end

