-- ==== Sys2Proof/Machine/Fifo.lean ====
section
/-! DEFINITION. The meanings of push and pull, which share a tag (30_encoding.md R62). -/

namespace Sys2Proof.Machine

/-- push: R105 and R148 deliver it with index 4 (R30), R125 packs it, R188 renders it. -/
def execPush (ifFull block : Bool) (s : State) : Outcome :=
  perform (.push ifFull block) 4 (packPush ifFull block) (textPush ifFull block) s

/-- pull: R106 and R149 deliver it with index 5, R126 packs it, R189 renders it. -/
def execPull (ifEmpty block : Bool) (s : State) : Outcome :=
  perform (.pull ifEmpty block) 5 (packPull ifEmpty block) (textPull ifEmpty block) s

end Sys2Proof.Machine
end

