-- ==== Sys2Proof/Machine/Flow.lean ====
section
/-! DEFINITION. The meanings of jmp, wait and irq: what the block does with an instruction of that variant under
each of its operations. The block does not execute it (60_exceptions.md R225). -/

namespace Sys2Proof.Machine

/-- jmp: R101 and R144 deliver it with index 0 (R30), R121 packs it, R184 renders it. The target is data: it
selects no next instruction (10_state.md R22). -/
def execJump (condition : JumpCondition) (target : Addr5) (s : State) : Outcome :=
  perform (.jump condition target) 0 (packJump condition target)
    (textJump s.config.tokens s.resolver condition target) s

/-- wait: R102 and R145 deliver it with index 1, R122 packs it, R185 renders it. -/
def execWait (polarity : Bit1) (source : WaitSource) (index : Index5) (s : State) : Outcome :=
  perform (.wait polarity source index) 1 (packWait polarity source index)
    (textWait s.config.tokens polarity source index) s

/-- irq: R108 and R151 deliver it with index 7, R128 packs it, R191 renders it. -/
def execIrq (clear wait : Bool) (index : Index5) (s : State) : Outcome :=
  perform (.irq clear wait index) 7 (packIrq clear wait index) (textIrq clear wait index) s

end Sys2Proof.Machine
end

