-- ==== Sys2Proof/Machine/Shift.lean ====
section
/-! DEFINITION. The meanings of in and out. -/

namespace Sys2Proof.Machine

/-- in: R103 and R146 deliver it with index 2 (R30), R123 packs it, R186 renders it. -/
def execShiftIn (source : InSource) (bitCount : BitCount) (s : State) : Outcome :=
  perform (.shiftIn source bitCount) 2 (packShiftIn source bitCount)
    (textShiftIn s.config.tokens source bitCount) s

/-- out: R104 and R147 deliver it with index 3, R124 packs it, R187 renders it. -/
def execShiftOut (destination : OutDestination) (bitCount : BitCount) (s : State) : Outcome :=
  perform (.shiftOut destination bitCount) 3 (packShiftOut destination bitCount)
    (textShiftOut s.config.tokens destination bitCount) s

end Sys2Proof.Machine
end

