-- ==== Sys2Proof/Machine/Dispatch.lean ====
section
/-! DEFINITION. One arm for each constructor of Instr, one meaning for each arm. -/

namespace Sys2Proof.Machine

def exec (i : Instr) (s : State) : Host.Outcome State Fault Refusal :=
  match i with
  | .jump condition target => Sys2Proof.Machine.execJump condition target s
  | .wait polarity source index => Sys2Proof.Machine.execWait polarity source index s
  | .shiftIn source bitCount => Sys2Proof.Machine.execShiftIn source bitCount s
  | .shiftOut destination bitCount => Sys2Proof.Machine.execShiftOut destination bitCount s
  | .push ifFull block => Sys2Proof.Machine.execPush ifFull block s
  | .pull ifEmpty block => Sys2Proof.Machine.execPull ifEmpty block s
  | .move destination operation source => Sys2Proof.Machine.execMove destination operation source s
  | .irq clear wait index => Sys2Proof.Machine.execIrq clear wait index s
  | .set destination data => Sys2Proof.Machine.execSet destination data s

end Sys2Proof.Machine
end

