-- ==== Sys2Proof/Machine/Step.lean ====
section
/-! DEFINITION. One step is one operation of the block (20_memory.md R51): it comes by the call's instruction and
runs it, or ends with the error. -/

namespace Sys2Proof.Machine

/-- One operation, from the call on the input ports to the result on the output ports. With no call nothing
happens (DESIGN CHOICE, log entry 3; unsafe for claims about results between operations). -/
def step (s : State) : Host.Outcome State Fault Refusal :=
  match s.call with
  | none => .next s
  | some call =>
    match obtain call s with
    | .instr i s' => exec i s'
    | .err e s' => raise e s'
    | .stop f => .fault f

/-- The state with a word where `step` takes its next instruction from: on `dec_word`, with `Decode` as the
operation (10_state.md R32, R33). The block loads no program; this stands for the caller presenting the word
(log entry 6). -/
def State.withFetchWord (s : State) (nbits w : Nat) : State :=
  { s with call := some (.decode (BitVec.ofNat 16 (w % 2 ^ nbits))) }

end Sys2Proof.Machine
end

