-- ==== Sys2Proof/Safety.lean ====
section
/-! DEFINITION. What claims about runs are stated in: the invariant of the state, and which errors an operation can
raise. -/

namespace Sys2Proof.Machine

/-- The instruction on an input port is structurally legal (10_state.md R28). -/
def Call.legal : Call → Bool
  | .construct _ _ => true
  | .encode i => i.wellFormed
  | .decode _ => true
  | .encodeToBuffer i => i.wellFormed
  | .decodeFromBuffer => true
  | .toAssemblyText i _ => i.wellFormed

/-- The instruction on an output port is structurally legal, and `dec_variant` is its index (R28, R30). -/
def Result.legal : Result → Bool
  | .instruction i => i.wellFormed
  | .word _ => true
  | .decoded i variant => i.wellFormed && variant == i.variantIndex
  | .written => true
  | .text _ => true
  | .error _ => true

/-- The invariant: the buffer is in canonical form, and the instructions on the ports are legal. -/
def State.inv (s : State) : Prop :=
  s.buffer.wf ∧ (∀ c, s.call = some c → c.legal = true) ∧ (∀ r, s.result = some r → r.legal = true)

/-- Which operation can raise which error kind (60_exceptions.md R216); "unreachable" is no. -/
def mayRaise (config : Config) (call : Call) (kind : ErrorKind) : Bool :=
  match call, kind with
  | .construct _ _, .outOfRange => true
  | .construct _ _, .unsupported => true
  | .decode _, .unrecognizedValue => true
  | .decode _, .unsupported => config.unusedBits == .reject
  | .encodeToBuffer _, .bufferTooSmall => true
  | .decodeFromBuffer, .unrecognizedValue => true
  | .decodeFromBuffer, .bufferTooSmall => true
  | .decodeFromBuffer, .unsupported => config.unusedBits == .reject
  | _, _ => false

end Sys2Proof.Machine
end

