-- ==== Sys2Proof/Certificates/Slice0/Obligations.lean ====
section
/-! DEFINITION. The statements about this model. The numbers and spellings of the spec's tables are written out
anew here, so that a slip in the model's own tables makes a statement false. -/

namespace Sys2Proof.Claims

open Sys2Proof.Machine

/-- The state in which the operation of `s` has ended with the result `r`: the parameters, the buffer, the
racers and the counter of racing reads are those of `s`. -/
def ended (s : State) (r : Result) : State := { s with call := none, result := some r }

/-- Patterns of 30_encoding.md R74. -/
def conditionNumber : JumpCondition → Nat
  | .always => 0 | .notX => 1 | .xPostDec => 2 | .notY => 3
  | .yPostDec => 4 | .xNotEqualY => 5 | .pin => 6 | .notOsre => 7

/-- Patterns of R75. -/
def waitSourceNumber : WaitSource → Nat
  | .gpio => 0 | .pin => 1 | .irq => 2

/-- Patterns of R76. -/
def inSourceNumber : InSource → Nat
  | .pins => 0 | .x => 1 | .y => 2 | .null => 3 | .isr => 6 | .osr => 7

/-- Patterns of R77. -/
def outDestinationNumber : OutDestination → Nat
  | .pins => 0 | .x => 1 | .y => 2 | .null => 3 | .pinDirs => 4 | .pc => 5 | .isr => 6 | .exec => 7

/-- Patterns of R78. -/
def movDestinationNumber : MovDestination → Nat
  | .pins => 0 | .x => 1 | .y => 2 | .exec => 4 | .pc => 5 | .isr => 6 | .osr => 7

/-- Patterns of R79. -/
def movOperationNumber : MovOperation → Nat
  | .none => 0 | .invert => 1 | .bitReverse => 2

/-- Patterns of R80. -/
def movSourceNumber : MovSource → Nat
  | .pins => 0 | .x => 1 | .y => 2 | .null => 3 | .status => 5 | .isr => 6 | .osr => 7

/-- Patterns of R81. -/
def setDestinationNumber : SetDestination → Nat
  | .pins => 0 | .x => 1 | .y => 2 | .pinDirs => 4

/-- A bit of a word: `true` is 1 (00_scope.md R8). -/
def bitNumber (b : Bool) : Nat := if b then 1 else 0

/-- The count field of a logical bit count (R82). -/
def countNumber (n : BitCount) : Nat := if n.val = 32 then 0 else n.val

/-- The value of the word's bits `lo + width - 1` down to `lo` (00_scope.md R7). -/
def slice (w : Word) (lo width : Nat) : Nat := w.toNat / 2 ^ lo % 2 ^ width

/-- `UnrecognizedValue(field, value)`, `OutOfRange(field, value)` and `Unsupported("delaySideSet", value)`. -/
def unrecognized (field : Field) (value : Nat) : Result := .error ⟨.unrecognizedValue, field, value⟩
def outside (field : Field) (value : Nat) : Result := .error ⟨.outOfRange, field, value⟩
def sideSet (value : Nat) : Result := .error ⟨.unsupported, .delaySideSet, value⟩

/-- The check of bits 12:8 (42_decode.md R153): under `Reject` a non-zero value ends the decode, before
anything else; otherwise the decode ends with `r`. -/
def afterSideSet (s : State) (w : Word) (r : Result) : Result :=
  if s.config.unusedBits = .reject ∧ slice w 8 5 ≠ 0 then sideSet (slice w 8 5) else r

/-- The check of an unused field (R153): under `Reject` a non-zero value ends the decode. -/
def afterUnused (s : State) (field : Field) (value : Nat) (r : Result) : Result :=
  if s.config.unusedBits = .reject ∧ value ≠ 0 then unrecognized field value else r

/-- `TOKENS(c) ++ " "`, or nothing for `Always` (44_assembly_text.md R184). -/
def conditionToken (t : Tokens) : JumpCondition → AsciiString
  | .always => []
  | .notX => t.jumpCondition.notX ++ ascii " "
  | .xPostDec => t.jumpCondition.xPostDec ++ ascii " "
  | .notY => t.jumpCondition.notY ++ ascii " "
  | .yPostDec => t.jumpCondition.yPostDec ++ ascii " "
  | .xNotEqualY => t.jumpCondition.xNotEqualY ++ ascii " "
  | .pin => t.jumpCondition.pin ++ ascii " "
  | .notOsre => t.jumpCondition.notOsre ++ ascii " "

/-- `TOKENS` of the other enumerations (R181), from the table of the configuration. -/
def waitSourceToken (t : Tokens) : WaitSource → AsciiString
  | .gpio => t.waitSource.gpio | .pin => t.waitSource.pin | .irq => t.waitSource.irq
def inSourceToken (t : Tokens) : InSource → AsciiString
  | .pins => t.inSource.pins | .x => t.inSource.x | .y => t.inSource.y | .null => t.inSource.null
  | .isr => t.inSource.isr | .osr => t.inSource.osr
def outDestinationToken (t : Tokens) : OutDestination → AsciiString
  | .pins => t.outDestination.pins | .x => t.outDestination.x | .y => t.outDestination.y
  | .null => t.outDestination.null | .pinDirs => t.outDestination.pinDirs
  | .pc => t.outDestination.pc | .isr => t.outDestination.isr | .exec => t.outDestination.exec
def movDestinationToken (t : Tokens) : MovDestination → AsciiString
  | .pins => t.movDestination.pins | .x => t.movDestination.x | .y => t.movDestination.y
  | .exec => t.movDestination.exec | .pc => t.movDestination.pc | .isr => t.movDestination.isr
  | .osr => t.movDestination.osr
def movOperationToken (t : Tokens) : MovOperation → AsciiString
  | .none => [] | .invert => t.movOperation.invert ++ ascii " "
  | .bitReverse => t.movOperation.bitReverse ++ ascii " "
def movSourceToken (t : Tokens) : MovSource → AsciiString
  | .pins => t.movSource.pins | .x => t.movSource.x | .y => t.movSource.y
  | .null => t.movSource.null | .status => t.movSource.status | .isr => t.movSource.isr
  | .osr => t.movSource.osr
def setDestinationToken (t : Tokens) : SetDestination → AsciiString
  | .pins => t.setDestination.pins | .x => t.setDestination.x | .y => t.setDestination.y
  | .pinDirs => t.setDestination.pinDirs

/-- `Target(t, r)` (R183). -/
def target (r : Resolver) (t : Addr5) : AsciiString :=
  match r with
  | .none => decimal t.toNat
  | .fixed text => text
  | .map table => table.toList.getD t.toNat []

/-- `IrqIndexText(x)` (R193). -/
def irqIndex (u : Index5) : AsciiString :=
  decimal (u.toNat % 16) ++ (if 16 ≤ u.toNat then ascii " rel" else [])

/-- The first field, from the highest bit down, that holds a pattern which 30_encoding.md R84 lists as
unassigned, and that pattern. -/
def unassigned (w : Word) : Option (Field × Nat) :=
  if slice w 13 3 = 1 ∧ slice w 5 2 = 3 then some (.waitSource, 3)
  else if slice w 13 3 = 2 ∧ (slice w 5 3 = 4 ∨ slice w 5 3 = 5) then
    some (.shiftInSource, slice w 5 3)
  else if slice w 13 3 = 5 ∧ slice w 5 3 = 3 then some (.moveDestination, 3)
  else if slice w 13 3 = 5 ∧ slice w 3 2 = 3 then some (.moveOperation, 3)
  else if slice w 13 3 = 5 ∧ slice w 0 3 = 4 then some (.moveSource, 4)
  else if slice w 13 3 = 7 ∧
      (slice w 5 3 = 3 ∨ slice w 5 3 = 5 ∨ slice w 5 3 = 6 ∨ slice w 5 3 = 7) then
    some (.setDestination, slice w 5 3)
  else none

/-- The word with a given tag, bits 12:8 and operand byte. -/
def wordOf (tag sideSetBits operandByte : Nat) : Word :=
  BitVec.ofNat 16 (tag * 8192 + sideSetBits * 256 + operandByte)

/-- How many of the 256 operand bytes give a word that decodes. -/
def decodableBytes (config : Config) (tag sideSetBits : Nat) : Nat :=
  ((List.range 256).filter (fun b => (decode config (wordOf tag sideSetBits b)).toBool)).length

/-- A string of printable characters: no newline and no other control character. -/
def printable (t : AsciiString) : Prop := ∀ c ∈ t, 32 ≤ c.val ∧ c.val ≤ 126

/-- Every token of the table is printable. -/
def printableTokens (t : Tokens) : Prop :=
  (∀ c, printable (t.jumpCondition.render c)) ∧ (∀ u, printable (t.waitSource.render u)) ∧
  (∀ u, printable (t.inSource.render u)) ∧ (∀ u, printable (t.outDestination.render u)) ∧
  (∀ u, printable (t.movDestination.render u)) ∧ (∀ u, printable (t.movOperation.render u)) ∧
  (∀ u, printable (t.movSource.render u)) ∧ (∀ u, printable (t.setDestination.render u))

/-- The resolver's texts are printable. -/
def printableResolver : Resolver → Prop
  | .none => True
  | .fixed text => printable text
  | .map table => ∀ t ∈ table.toList, printable t

/-- Whether the operation of a call touches the buffer (20_memory.md R40). -/
def touchesBuffer : Call → Bool
  | .encodeToBuffer _ => true
  | .decodeFromBuffer => true
  | _ => false

/-- The candidates of a race for the bytes at indices 0 and 1 (R53): the earlier content, and the bytes of the
words that racing writers store there, low byte first (R43). -/
def racing0 (s : State) (earlier b : Byte) : Prop := b = earlier ∨ ∃ w ∈ s.racers, b.toNat = w.toNat % 256
def racing1 (s : State) (earlier b : Byte) : Prop := b = earlier ∨ ∃ w ∈ s.racers, b.toNat = w.toNat / 256

end Sys2Proof.Claims

open Sys2Proof Sys2Proof.Machine Sys2Proof.Claims

/-! ### Encode: what each instruction packs into its word (41_encode.md) -/

/-- R121. -/
def Obligations.EncodeJumpPacksItsFields : Prop :=
  ∀ (c : JumpCondition) (t : Addr5) (j : Instr) (s : State), s.call = some (.encode j) →
    ∃ w : Word, exec (.jump c t) s = .next (ended s (.word w)) ∧
      w.toNat = 32 * conditionNumber c + t.toNat

/-- R122. -/
def Obligations.EncodeWaitPacksItsFields : Prop :=
  ∀ (p : Bit1) (u : WaitSource) (n : Index5) (j : Instr) (s : State), s.call = some (.encode j) →
    ∃ w : Word, exec (.wait p u n) s = .next (ended s (.word w)) ∧
      w.toNat = 0x2000 + 128 * p.toNat + 32 * waitSourceNumber u + n.toNat

/-- R123, for its bit counts 1 to 32. -/
def Obligations.EncodeShiftInPacksItsFields : Prop :=
  ∀ (u : InSource) (n : BitCount) (j : Instr) (s : State), s.call = some (.encode j) → n ≠ 0 →
    ∃ w : Word, exec (.shiftIn u n) s = .next (ended s (.word w)) ∧
      w.toNat = 0x4000 + 32 * inSourceNumber u + countNumber n

/-- R124, for its bit counts 1 to 32. -/
def Obligations.EncodeShiftOutPacksItsFields : Prop :=
  ∀ (d : OutDestination) (n : BitCount) (j : Instr) (s : State), s.call = some (.encode j) → n ≠ 0 →
    ∃ w : Word, exec (.shiftOut d n) s = .next (ended s (.word w)) ∧
      w.toNat = 0x6000 + 32 * outDestinationNumber d + countNumber n

/-- R125. -/
def Obligations.EncodePushPacksItsFlags : Prop :=
  ∀ (f b : Bool) (j : Instr) (s : State), s.call = some (.encode j) →
    ∃ w : Word, exec (.push f b) s = .next (ended s (.word w)) ∧
      w.toNat = 0x8000 + 64 * bitNumber f + 32 * bitNumber b

/-- R126. -/
def Obligations.EncodePullPacksItsFlagsAndBitSeven : Prop :=
  ∀ (e b : Bool) (j : Instr) (s : State), s.call = some (.encode j) →
    ∃ w : Word, exec (.pull e b) s = .next (ended s (.word w)) ∧
      w.toNat = 0x8000 + 128 + 64 * bitNumber e + 32 * bitNumber b

/-- R127. -/
def Obligations.EncodeMovePacksItsFields : Prop :=
  ∀ (d : MovDestination) (o : MovOperation) (u : MovSource) (j : Instr) (s : State),
    s.call = some (.encode j) →
    ∃ w : Word, exec (.move d o u) s = .next (ended s (.word w)) ∧
      w.toNat = 0xA000 + 32 * movDestinationNumber d + 8 * movOperationNumber o + movSourceNumber u

/-- R128. -/
def Obligations.EncodeIrqPacksItsFields : Prop :=
  ∀ (c wt : Bool) (n : Index5) (j : Instr) (s : State), s.call = some (.encode j) →
    ∃ w : Word, exec (.irq c wt n) s = .next (ended s (.word w)) ∧
      w.toNat = 0xC000 + 64 * bitNumber c + 32 * bitNumber wt + n.toNat

/-- R129. -/
def Obligations.EncodeSetPacksItsFields : Prop :=
  ∀ (d : SetDestination) (v : Data5) (j : Instr) (s : State), s.call = some (.encode j) →
    ∃ w : Word, exec (.set d v) s = .next (ended s (.word w)) ∧
      w.toNat = 0xE000 + 32 * setDestinationNumber d + v.toNat

/-! ### Decode: what each word gives (42_decode.md section 2) -/

/-- R144. -/
def Obligations.DecodeJumpWord : Prop :=
  ∀ (s : State) (w : Word), s.call = some (.decode w) → slice w 13 3 = 0 →
    ∃ (c : JumpCondition) (t : Addr5), conditionNumber c = slice w 5 3 ∧ t.toNat = slice w 0 5 ∧
      step s = .next (ended s (afterSideSet s w (.decoded (.jump c t) 0)))

/-- R145. -/
def Obligations.DecodeWaitWord : Prop :=
  ∀ (s : State) (w : Word), s.call = some (.decode w) → slice w 13 3 = 1 →
    (slice w 5 2 = 3 → step s = .next (ended s (afterSideSet s w (unrecognized .waitSource 3)))) ∧
    (slice w 5 2 ≠ 3 → ∃ (p : Bit1) (u : WaitSource) (n : Index5),
      p.toNat = slice w 7 1 ∧ waitSourceNumber u = slice w 5 2 ∧ n.toNat = slice w 0 5 ∧
      step s = .next (ended s (afterSideSet s w (.decoded (.wait p u n) 1))))

/-- R146. -/
def Obligations.DecodeShiftInWord : Prop :=
  ∀ (s : State) (w : Word), s.call = some (.decode w) → slice w 13 3 = 2 →
    ((slice w 5 3 = 4 ∨ slice w 5 3 = 5) →
      step s = .next (ended s (afterSideSet s w (unrecognized .shiftInSource (slice w 5 3))))) ∧
    (slice w 5 3 ≠ 4 ∧ slice w 5 3 ≠ 5 → ∃ (u : InSource) (n : BitCount),
      inSourceNumber u = slice w 5 3 ∧ n.val = (if slice w 0 5 = 0 then 32 else slice w 0 5) ∧
      step s = .next (ended s (afterSideSet s w (.decoded (.shiftIn u n) 2))))

/-- R147. -/
def Obligations.DecodeShiftOutWord : Prop :=
  ∀ (s : State) (w : Word), s.call = some (.decode w) → slice w 13 3 = 3 →
    ∃ (d : OutDestination) (n : BitCount), outDestinationNumber d = slice w 5 3 ∧
      n.val = (if slice w 0 5 = 0 then 32 else slice w 0 5) ∧
      step s = .next (ended s (afterSideSet s w (.decoded (.shiftOut d n) 3)))

/-- R148. -/
def Obligations.DecodePushWord : Prop :=
  ∀ (s : State) (w : Word), s.call = some (.decode w) → slice w 13 3 = 4 → slice w 7 1 = 0 →
    step s = .next (ended s (afterSideSet s w (afterUnused s .pushUnused (slice w 0 5)
      (.decoded (.push (slice w 6 1 == 1) (slice w 5 1 == 1)) 4))))

/-- R149. -/
def Obligations.DecodePullWord : Prop :=
  ∀ (s : State) (w : Word), s.call = some (.decode w) → slice w 13 3 = 4 → slice w 7 1 = 1 →
    step s = .next (ended s (afterSideSet s w (afterUnused s .pullUnused (slice w 0 5)
      (.decoded (.pull (slice w 6 1 == 1) (slice w 5 1 == 1)) 5))))

/-- R150. -/
def Obligations.DecodeMoveWord : Prop :=
  ∀ (s : State) (w : Word), s.call = some (.decode w) → slice w 13 3 = 5 →
    (slice w 5 3 = 3 →
      step s = .next (ended s (afterSideSet s w (unrecognized .moveDestination 3)))) ∧
    (slice w 5 3 ≠ 3 → slice w 3 2 = 3 →
      step s = .next (ended s (afterSideSet s w (unrecognized .moveOperation 3)))) ∧
    (slice w 5 3 ≠ 3 → slice w 3 2 ≠ 3 → slice w 0 3 = 4 →
      step s = .next (ended s (afterSideSet s w (unrecognized .moveSource 4)))) ∧
    (slice w 5 3 ≠ 3 → slice w 3 2 ≠ 3 → slice w 0 3 ≠ 4 →
      ∃ (d : MovDestination) (o : MovOperation) (u : MovSource),
        movDestinationNumber d = slice w 5 3 ∧ movOperationNumber o = slice w 3 2 ∧
        movSourceNumber u = slice w 0 3 ∧
        step s = .next (ended s (afterSideSet s w (.decoded (.move d o u) 6))))

/-- R151. -/
def Obligations.DecodeIrqWord : Prop :=
  ∀ (s : State) (w : Word), s.call = some (.decode w) → slice w 13 3 = 6 →
    ∃ n : Index5, n.toNat = slice w 0 5 ∧
      step s = .next (ended s (afterSideSet s w (afterUnused s .irqUnused (slice w 7 1)
        (.decoded (.irq (slice w 6 1 == 1) (slice w 5 1 == 1) n) 7))))

/-- R152. -/
def Obligations.DecodeSetWord : Prop :=
  ∀ (s : State) (w : Word), s.call = some (.decode w) → slice w 13 3 = 7 →
    ((slice w 5 3 = 3 ∨ slice w 5 3 = 5 ∨ slice w 5 3 = 6 ∨ slice w 5 3 = 7) →
      step s = .next (ended s (afterSideSet s w (unrecognized .setDestination (slice w 5 3))))) ∧
    ((slice w 5 3 = 0 ∨ slice w 5 3 = 1 ∨ slice w 5 3 = 2 ∨ slice w 5 3 = 4) →
      ∃ (d : SetDestination) (v : Data5), setDestinationNumber d = slice w 5 3 ∧
        v.toNat = slice w 0 5 ∧
        step s = .next (ended s (afterSideSet s w (.decoded (.set d v) 8))))

/-! ### Construct: operand validation (40_construction.md) -/

/-- R101. -/
def Obligations.ConstructJumpChecksItsTarget : Prop :=
  ∀ (c : JumpCondition) (t d : Nat) (s : State), s.call = some (.construct (.jump c t) d) →
    (d ≠ 0 → step s = .next (ended s (sideSet d))) ∧
    (d = 0 → 31 < t → step s = .next (ended s (outside .jumpTarget t))) ∧
    (d = 0 → t ≤ 31 → ∃ u : Addr5, u.toNat = t ∧
      step s = .next (ended s (.instruction (.jump c u))))

/-- R102. -/
def Obligations.ConstructWaitChecksPolarityThenIndex : Prop :=
  ∀ (p : Nat) (u : WaitSource) (n d : Nat) (s : State),
    s.call = some (.construct (.wait p u n) d) →
    (d ≠ 0 → step s = .next (ended s (sideSet d))) ∧
    (d = 0 → 1 < p → step s = .next (ended s (outside .waitPolarity p))) ∧
    (d = 0 → p ≤ 1 → 31 < n → step s = .next (ended s (outside .waitIndex n))) ∧
    (d = 0 → p ≤ 1 → n ≤ 31 → ∃ (q : Bit1) (k : Index5), q.toNat = p ∧ k.toNat = n ∧
      step s = .next (ended s (.instruction (.wait q u k))))

/-- R103 and R104. -/
def Obligations.ConstructShiftChecksItsBitCount : Prop :=
  (∀ (u : InSource) (n d : Nat) (s : State), s.call = some (.construct (.shiftIn u n) d) →
    (d ≠ 0 → step s = .next (ended s (sideSet d))) ∧
    (d = 0 → 32 < n ∨ (n = 0 ∧ s.config.bitCount = .oneTo32) →
      step s = .next (ended s (outside .shiftInBitCount n))) ∧
    (d = 0 → n ≤ 32 → n ≠ 0 ∨ s.config.bitCount = .zeroAlias32 →
      ∃ k : BitCount, k.val = (if n = 0 then 32 else n) ∧
        step s = .next (ended s (.instruction (.shiftIn u k))))) ∧
  (∀ (u : OutDestination) (n d : Nat) (s : State), s.call = some (.construct (.shiftOut u n) d) →
    (d ≠ 0 → step s = .next (ended s (sideSet d))) ∧
    (d = 0 → 32 < n ∨ (n = 0 ∧ s.config.bitCount = .oneTo32) →
      step s = .next (ended s (outside .shiftOutBitCount n))) ∧
    (d = 0 → n ≤ 32 → n ≠ 0 ∨ s.config.bitCount = .zeroAlias32 →
      ∃ k : BitCount, k.val = (if n = 0 then 32 else n) ∧
        step s = .next (ended s (.instruction (.shiftOut u k)))))

/-- R105, R106 and R107. -/
def Obligations.ConstructPushPullMoveAcceptEveryOperand : Prop :=
  ∀ (f b : Bool) (u : MovDestination) (o : MovOperation) (z : MovSource) (d : Nat) (s : State),
    (s.call = some (.construct (.push f b) d) →
      step s = .next (ended s (if d = 0 then .instruction (.push f b) else sideSet d))) ∧
    (s.call = some (.construct (.pull f b) d) →
      step s = .next (ended s (if d = 0 then .instruction (.pull f b) else sideSet d))) ∧
    (s.call = some (.construct (.move u o z) d) →
      step s = .next (ended s (if d = 0 then .instruction (.move u o z) else sideSet d)))

/-- R108. -/
def Obligations.ConstructIrqChecksItsIndex : Prop :=
  ∀ (c wt : Bool) (n d : Nat) (s : State), s.call = some (.construct (.irq c wt n) d) →
    (d ≠ 0 → step s = .next (ended s (sideSet d))) ∧
    (d = 0 → 31 < n → step s = .next (ended s (outside .irqIndex n))) ∧
    (d = 0 → n ≤ 31 → ∃ k : Index5, k.toNat = n ∧
      step s = .next (ended s (.instruction (.irq c wt k))))

/-- R112: the flags of each Irq operation; none gives both. -/
def Obligations.IrqOperationGivesItsFlags : Prop :=
  ∀ n : Nat,
    IrqOperation.clear.operands n = .irq true false n ∧
    IrqOperation.wait.operands n = .irq false true n ∧
    IrqOperation.set.operands n = .irq false false n ∧
    ∀ op : IrqOperation, op.operands n ≠ .irq true true n

/-- R109. -/
def Obligations.ConstructSetChecksItsData : Prop :=
  ∀ (u : SetDestination) (v d : Nat) (s : State), s.call = some (.construct (.set u v) d) →
    (d ≠ 0 → step s = .next (ended s (sideSet d))) ∧
    (d = 0 → 31 < v → step s = .next (ended s (outside .setData v))) ∧
    (d = 0 → v ≤ 31 → ∃ k : Data5, k.toNat = v ∧
      step s = .next (ended s (.instruction (.set u k))))

/-! ### ToAssemblyText: the line of each instruction (44_assembly_text.md), with every table of tokens -/

/-- R184, with the three resolvers of R183. -/
def Obligations.TextOfJump : Prop :=
  ∀ (c : JumpCondition) (t : Addr5) (j : Instr) (r : Resolver) (s : State),
    s.call = some (.toAssemblyText j r) →
    exec (.jump c t) s =
      .next (ended s (.text (ascii "jmp " ++ conditionToken s.config.tokens c ++ target r t)))

/-- R185, with R193. -/
def Obligations.TextOfWait : Prop :=
  ∀ (p : Bit1) (u : WaitSource) (n : Index5) (j : Instr) (r : Resolver) (s : State),
    s.call = some (.toAssemblyText j r) →
    exec (.wait p u n) s = .next (ended s (.text (ascii "wait " ++
      (if p = 1 then ascii "1" else ascii "0") ++ ascii " " ++
      waitSourceToken s.config.tokens u ++ ascii " " ++ (if u = .irq then irqIndex n else decimal n.toNat))))

/-- R186, for the bit counts 1 to 32 of a legal instruction (10_state.md R26, R28). -/
def Obligations.TextOfShiftIn : Prop :=
  ∀ (u : InSource) (n : BitCount) (j : Instr) (r : Resolver) (s : State),
    s.call = some (.toAssemblyText j r) → n ≠ 0 →
    exec (.shiftIn u n) s =
      .next (ended s (.text (ascii "in " ++ inSourceToken s.config.tokens u ++ ascii ", " ++ decimal n.val)))

/-- R187, for the bit counts 1 to 32 of a legal instruction (10_state.md R26, R28). -/
def Obligations.TextOfShiftOut : Prop :=
  ∀ (d : OutDestination) (n : BitCount) (j : Instr) (r : Resolver) (s : State),
    s.call = some (.toAssemblyText j r) → n ≠ 0 →
    exec (.shiftOut d n) s =
      .next (ended s (.text
        (ascii "out " ++ outDestinationToken s.config.tokens d ++ ascii ", " ++ decimal n.val)))

/-- R188 and R189. -/
def Obligations.TextOfPushAndPull : Prop :=
  ∀ (f b : Bool) (j : Instr) (r : Resolver) (s : State), s.call = some (.toAssemblyText j r) →
    exec (.push f b) s = .next (ended s (.text (ascii "push " ++ (if f then ascii "iffull " else []) ++
      (if b then ascii "block" else ascii "noblock")))) ∧
    exec (.pull f b) s = .next (ended s (.text (ascii "pull " ++ (if f then ascii "ifempty " else []) ++
      (if b then ascii "block" else ascii "noblock"))))

/-- R190, and the default tokens it quotes. -/
def Obligations.TextOfMove : Prop :=
  Tokens.default.movOperation = { invert := ascii "!", bitReverse := ascii "::" } ∧
  ∀ (d : MovDestination) (o : MovOperation) (u : MovSource) (j : Instr) (r : Resolver) (s : State),
    s.call = some (.toAssemblyText j r) →
    exec (.move d o u) s = .next (ended s (.text (ascii "mov " ++
      movDestinationToken s.config.tokens d ++ ascii ", " ++
      movOperationToken s.config.tokens o ++ movSourceToken s.config.tokens u)))

/-- R191, with R193. -/
def Obligations.TextOfIrq : Prop :=
  ∀ (c wt : Bool) (n : Index5) (j : Instr) (r : Resolver) (s : State),
    s.call = some (.toAssemblyText j r) →
    exec (.irq c wt n) s = .next (ended s (.text (ascii "irq " ++
      (if c then ascii "clear" else if wt then ascii "wait" else ascii "set") ++ ascii " " ++ irqIndex n)))

/-- R192. -/
def Obligations.TextOfSet : Prop :=
  ∀ (d : SetDestination) (v : Data5) (j : Instr) (r : Resolver) (s : State),
    s.call = some (.toAssemblyText j r) →
    exec (.set d v) s =
      .next (ended s (.text
        (ascii "set " ++ setDestinationToken s.config.tokens d ++ ascii ", " ++ decimal v.toNat)))

/-- R182: the characters of `decimal n` are ASCII digits, their value is `n`, and none of two or more leads with
a zero. -/
def Obligations.DecimalTextIsTheNumber : Prop :=
  ∀ n : Nat,
    (decimal n).foldl (fun a c => 10 * a + (c.val - 48)) 0 = n ∧
    (∀ c ∈ decimal n, 48 ≤ c.val ∧ c.val ≤ 57) ∧
    decimal n ≠ [] ∧
    (1 < (decimal n).length → (decimal n).head? ≠ some 48)

/-- R180: one line of ASCII text, with no newline, whatever printable tokens and resolver are given. -/
def Obligations.TextIsOnePrintableLine : Prop :=
  ∀ (t : Tokens) (r : Resolver) (i : Instr), printableTokens t → printableResolver r →
    printable (toAssemblyText t r i) ∧ toAssemblyText t r i ≠ []

/-- R181: the default table of tokens, every token written out. -/
def Obligations.DefaultTokensAreThoseOfTheTable : Prop :=
  Tokens.default =
    { jumpCondition := ⟨ascii "!X", ascii "X--", ascii "!Y", ascii "Y--", ascii "X!=Y", ascii "PIN",
        ascii "!OSRE"⟩,
      waitSource := ⟨ascii "GPIO", ascii "PIN", ascii "IRQ"⟩,
      inSource := ⟨ascii "PINS", ascii "X", ascii "Y", ascii "NULL", ascii "ISR", ascii "OSR"⟩,
      outDestination := ⟨ascii "PINS", ascii "X", ascii "Y", ascii "NULL", ascii "PINDIRS", ascii "PC",
        ascii "ISR", ascii "EXEC"⟩,
      movDestination := ⟨ascii "PINS", ascii "X", ascii "Y", ascii "EXEC", ascii "PC", ascii "ISR",
        ascii "OSR"⟩,
      movOperation := ⟨ascii "!", ascii "::"⟩,
      movSource := ⟨ascii "PINS", ascii "X", ascii "Y", ascii "NULL", ascii "STATUS", ascii "ISR",
        ascii "OSR"⟩,
      setDestination := ⟨ascii "PINS", ascii "X", ascii "Y", ascii "PINDIRS"⟩ }

/-! ### The buffer operations (43_buffers.md, 20_memory.md) -/

/-- R170, R172, R173: with no racing writer the word lies at indices 0 and 1, low byte first, and every other
byte is left alone; a short buffer is refused and left alone, race or not. What a raced store leaves:
`RacesShowAndLeaveCandidates`. -/
def Obligations.EncodeToBufferStoresTheWord : Prop :=
  ∀ (i j : Instr) (s : State), s.call = some (.encodeToBuffer j) → s.buffer.wf →
    (2 ≤ s.buffer.size → s.racers = [] → ∃ m : Memory,
      exec i s = .next (ended { s with buffer := m } .written) ∧ m.size = s.buffer.size ∧ m.wf ∧
      (∃ b0 b1 : Byte, m.read 0 = some b0 ∧ m.read 1 = some b1 ∧
        b0.toNat = (encode i).toNat % 256 ∧ b1.toNat = (encode i).toNat / 256) ∧
      ∀ a, a ≠ 0 → a ≠ 1 → m.read a = s.buffer.read a) ∧
    (s.buffer.size < 2 →
      exec i s = .next (ended s (.error ⟨.bufferTooSmall, .buffer, s.buffer.size⟩)))

/-- R171: with no racing writer the word `b0 | (b1 << 8)` is decoded, and its errors pass through; a short buffer
is always refused (R172), race or not. -/
def Obligations.DecodeFromBufferReadsTheWord : Prop :=
  ∀ s : State, s.call = some .decodeFromBuffer →
    (2 ≤ s.buffer.size → s.racers = [] → ∃ (b0 b1 : Byte) (w : Word),
      s.buffer.read 0 = some b0 ∧ s.buffer.read 1 = some b1 ∧
      w.toNat = b0.toNat + 256 * b1.toNat ∧
      (∀ i, decode s.config w = .ok i → step s = .next (ended s (.instruction i))) ∧
      (∀ e, decode s.config w = .error e → step s = .next (ended s (.error e)))) ∧
    (s.buffer.size < 2 →
      step s = .next (ended s (.error ⟨.bufferTooSmall, .buffer, s.buffer.size⟩)))

/-- R174, as two steps of the machine. -/
def Obligations.BufferRoundTrip : Prop :=
  ∀ (i : Instr) (s : State), s.call = some (.encodeToBuffer i) → i.wellFormed = true →
    s.buffer.wf → 2 ≤ s.buffer.size → s.racers = [] →
    ∃ s₁ : State, step s = .next s₁ ∧ s₁.result = some .written ∧
      step { s₁ with call := some .decodeFromBuffer } = .next (ended s₁ (.instruction i))

/-- Races on the buffer (R53), in the form the model gives them (whole racing words at index 0, each byte chosen
once for the read and once for what is left: log entry 5). Each byte a `DecodeFromBuffer` reads is a candidate, and
so is each byte that stands there afterwards; each byte an `EncodeToBuffer` leaves is its own or a candidate. Every
other byte stays. The statement rests on no value of the free choice. -/
def Obligations.RacesShowAndLeaveCandidates : Prop :=
  ∀ (s : State) (b0 b1 : Byte), s.buffer.wf → s.buffer.read 0 = some b0 → s.buffer.read 1 = some b1 →
    (s.call = some .decodeFromBuffer → ∃ (c0 c1 : Byte) (r : Result) (m : Memory) (d : Nat) (l0 l1 : Byte),
      step s = .next { ended s r with buffer := m, draws := d } ∧
      racing0 s b0 c0 ∧ racing1 s b1 c1 ∧
      (∀ i, decode s.config (c1 ++ c0) = .ok i → r = .instruction i) ∧
      (∀ e, decode s.config (c1 ++ c0) = .error e → r = .error e) ∧
      m.read 0 = some l0 ∧ m.read 1 = some l1 ∧ racing0 s b0 l0 ∧ racing1 s b1 l1 ∧
      ∀ a, a ≠ 0 → a ≠ 1 → m.read a = s.buffer.read a) ∧
    (∀ i j : Instr, s.call = some (.encodeToBuffer j) → ∃ (m : Memory) (d : Nat) (l0 l1 : Byte),
      exec i s = .next { ended s .written with buffer := m, draws := d } ∧
      m.read 0 = some l0 ∧ m.read 1 = some l1 ∧
      (l0.toNat = (encode i).toNat % 256 ∨ racing0 s b0 l0) ∧
      (l1.toNat = (encode i).toNat / 256 ∨ racing1 s b1 l1) ∧
      ∀ a, a ≠ 0 → a ≠ 1 → m.read a = s.buffer.read a)

/-! ### Laws of the encoding -/

/-- R156: with what the constructors can produce, and whatever the two configurations. -/
def Obligations.DecodeOfEncodeGivesTheInstruction : Prop :=
  (∀ (config : Config) (i : Instr), i.wellFormed = true → decode config (encode i) = .ok i) ∧
  (∀ (config : Config) (o : Operands) (d : Nat) (i : Instr),
    construct config o d = .ok i → i.wellFormed = true)

/-- R157: the words that decode to an instruction are those that agree with its word on the used bits; under
`Reject` there is one. -/
def Obligations.EncodeOfDecodeClearsTheUnusedBits : Prop :=
  ∀ (config : Config) (w : Word) (i : Instr), decode config w = .ok i →
    i.wellFormed = true ∧ encode i = w &&& usedBits i ∧
    (encode i = w ↔ w &&& ~~~ usedBits i = 0) ∧
    (config.unusedBits = .reject → encode i = w) ∧
    (config.unusedBits = .ignore → ∀ v : Word, v &&& usedBits i = encode i → decode config v = .ok i)

/-- R131. -/
def Obligations.EncodeIsInjective : Prop :=
  ∀ i j : Instr, i.wellFormed = true → j.wellFormed = true → encode i = encode j → i = j

/-- R153, the decoder under `Ignore` and under `Reject`. -/
def Obligations.UnusedBitsPolicyOfTheDecoder : Prop :=
  ∀ (config : Config),
    (config.unusedBits = .ignore → ∀ v w : Word,
      (v &&& 0xE0FF#16 = w &&& 0xE0FF#16 → decode config v = decode config w) ∧
      (slice w 13 3 = 4 → v &&& 0xE0E0#16 = w &&& 0xE0E0#16 → decode config v = decode config w) ∧
      (slice w 13 3 = 6 → v &&& 0xE07F#16 = w &&& 0xE07F#16 → decode config v = decode config w)) ∧
    (config.unusedBits = .reject → ∀ w : Word,
      (slice w 8 5 ≠ 0 →
        decode config w = .error ⟨.unsupported, .delaySideSet, slice w 8 5⟩) ∧
      (slice w 8 5 = 0 → slice w 13 3 = 4 → slice w 7 1 = 0 → slice w 0 5 ≠ 0 →
        decode config w = .error ⟨.unrecognizedValue, .pushUnused, slice w 0 5⟩) ∧
      (slice w 8 5 = 0 → slice w 13 3 = 4 → slice w 7 1 = 1 → slice w 0 5 ≠ 0 →
        decode config w = .error ⟨.unrecognizedValue, .pullUnused, slice w 0 5⟩) ∧
      (slice w 8 5 = 0 → slice w 13 3 = 6 → slice w 7 1 ≠ 0 →
        decode config w = .error ⟨.unrecognizedValue, .irqUnused, slice w 7 1⟩))

/-- R84, R85, R88, R153 and R154: a word decodes exactly when it holds no unassigned pattern and, under `Reject`,
no unused bit that is set; an unassigned pattern is named from the highest bit down, and under `Reject` the check of
bits 12:8 comes before. -/
def Obligations.WhichWordsDecode : Prop :=
  ∀ (config : Config) (w : Word),
    (config.unusedBits = .ignore ∨ slice w 8 5 = 0 → ∀ (f : Field) (p : Nat),
      unassigned w = some (f, p) → decode config w = .error ⟨.unrecognizedValue, f, p⟩) ∧
    (config.unusedBits = .reject → slice w 8 5 ≠ 0 →
      decode config w = .error ⟨.unsupported, .delaySideSet, slice w 8 5⟩) ∧
    ((∃ i, decode config w = .ok i) ↔ unassigned w = none ∧
      (config.unusedBits = .reject → slice w 8 5 = 0 ∧ (slice w 13 3 = 4 → slice w 0 5 = 0) ∧
        (slice w 13 3 = 6 → slice w 7 1 = 0)))

/-- R88: how many operand bytes decode, for each tag and each value of bits 12:8; and the totals, 53,856 and
1,307 of the 65,536 words. -/
def Obligations.CountsOfDecodableWords : Prop :=
  ∀ (config : Config),
    (config.unusedBits = .ignore →
      (∀ d < 32, (List.range 8).map (fun tag => decodableBytes config tag d) =
        [256, 192, 192, 256, 256, 147, 256, 128]) ∧
      ((List.range 8).map (fun tag =>
        ((List.range 32).map (fun d => decodableBytes config tag d)).sum)).sum = 53856) ∧
    (config.unusedBits = .reject →
      (List.range 8).map (fun tag => decodableBytes config tag 0) =
        [256, 192, 192, 256, 8, 147, 128, 128] ∧
      ((List.range 8).map (fun tag =>
        ((List.range 32).map (fun d => decodableBytes config tag d)).sum)).sum = 1307)

/-- R89 and R158: the rows of the opcode table, written out anew; one of them selects each word, and it gives
`dec_variant` and the decoded case. -/
def Obligations.OneOpcodeRowSelectsEachWord : Prop :=
  opcodeTable.map (fun r => (r.variant.toNat, r.bits.toNat, r.mask.toNat)) =
    [(0, 0x0000, 0xE000), (1, 0x2000, 0xE000), (2, 0x4000, 0xE000), (3, 0x6000, 0xE000),
     (4, 0x8000, 0xE080), (5, 0x8080, 0xE080), (6, 0xA000, 0xE000), (7, 0xC000, 0xE000),
     (8, 0xE000, 0xE000)] ∧
  ∀ w : Word, ∃ row, opcodeTable.filter (fun r => r.selects w) = [row] ∧
    dispatchIndex w = row.variant ∧
    ∀ (config : Config) (i : Instr), decode config w = .ok i → i.variantIndex = row.variant

/-- R33: the decoder's wires say what a `Decode` operation delivers. -/
def Obligations.DecoderWiresAgreeWithDecode : Prop :=
  ∀ (s : State) (w : Word), s.call = some (.decode w) →
    (∀ (i : Instr) (v : BitVec 4),
      decoderPorts s.config w = ⟨true, some v, some i, none⟩ ↔
        step s = .next (ended s (.decoded i v))) ∧
    (∀ e : Error, decoderPorts s.config w = ⟨false, none, none, some e⟩ ↔
        step s = .next (ended s (.error e)))

/-- R86 and R143: no word fails for its tag, and a tag outside the eight is signalled, never defaulted. -/
def Obligations.NoWordFailsForItsTag : Prop :=
  (∀ (config : Config) (w : Word) (e : Error), decode config w = .error e →
    e.kind ≠ .unrecognizedOpcode) ∧
  (∀ (config : Config) (w : Word) (tag : Nat), 8 ≤ tag →
    dispatch config tag w = .error ⟨.unrecognizedOpcode, .tag, tag⟩)

/-! ### The machine as a whole -/

/-- Every step keeps the invariant: the buffer stays in canonical form and the instructions on the ports stay
structurally legal (R28, R155). -/
def Obligations.EveryStepKeepsTheInvariant : Prop :=
  ∀ s s' : State, s.inv → step s = .next s' → s'.inv

/-- The invariant holds after reset. -/
def Obligations.ResetMeetsTheInvariant : Prop := State.reset.inv

/-- R249: every operation ends, with a result, and never with a fault or a refusal. -/
def Obligations.EveryOperationEndsWithAResult : Prop :=
  ∀ (s : State) (c : Call), s.call = some c →
    ∃ (s' : State) (r : Result), step s = .next s' ∧ s'.result = some r ∧ s'.call = none

/-- R216: which operation can raise which error kind. -/
def Obligations.ErrorsOfEachOperation : Prop :=
  ∀ (s s' : State) (c : Call) (e : Error), s.call = some c → step s = .next s' →
    s'.result = some (.error e) → mayRaise s.config c e.kind = true

/-- R217 and R218: a failing operation changes nothing, and the same inputs give the same error again. Of
`DecodeFromBuffer`, on a buffer long enough to be read, with no racing writer: a race gives other inputs. -/
def Obligations.AFailingOperationChangesNothingAndRepeats : Prop :=
  ∀ (s s' : State) (c : Call) (e : Error), s.call = some c →
    (c = .decodeFromBuffer → s.racers = [] ∨ s.buffer.size < 2) → step s = .next s' →
    s'.result = some (.error e) →
    s' = ended s (.error e) ∧
    step { s' with call := some c } = .next (ended s' (.error e))

/-- R24 and R173, over runs: no operation changes a parameter, and the buffer is never grown or shrunk. -/
def Obligations.RunsKeepTheParametersAndTheBufferSize : Prop :=
  ∀ (k : Nat) (s s' : State), core.run k s = .next s' →
    s'.config = s.config ∧ s'.buffer.size = s.buffer.size

/-- R52: the result of an operation does not depend on what came before it, only on its own inputs. A race on the
buffer is another input, for what `DecodeFromBuffer` reads and for what is left in the buffer. -/
def Obligations.ResultsDoNotDependOnEarlierOperations : Prop :=
  ∀ (s t s' t' : State) (c : Call), s.call = some c → t.call = some c → s.config = t.config →
    (touchesBuffer c = true → s.buffer = t.buffer) → step s = .next s' → step t = .next t' →
    ((c = .decodeFromBuffer → (s.racers = [] ∧ t.racers = []) ∨ s.buffer.size < 2) →
      s'.result = t'.result) ∧
    (touchesBuffer c = true → s.racers = [] → t.racers = [] → s'.buffer = t'.buffer)

/-- The frame of jmp, wait, in, out, push, pull, mov, irq and set: the parameters and the racers stay; under
`EncodeToBuffer` only the bytes at indices 0 and 1 may change, and in a race the counter; under every other
operation the buffer and the counter are unchanged. That with no operation nothing changes is log entry 3, and what
a race leaves and counts is log entry 5: both are the model's choices. -/
def Obligations.FrameOfEveryInstruction : Prop :=
  ∀ (i : Instr) (s s' : State), exec i s = .next s' →
    s'.config = s.config ∧ s'.racers = s.racers ∧ s'.call = none ∧
    s'.buffer.size = s.buffer.size ∧ (s.racers = [] → s'.draws = s.draws) ∧
    (∀ j, s.call = some (.encodeToBuffer j) →
      ∀ a, a ≠ 0 → a ≠ 1 → s'.buffer.read a = s.buffer.read a) ∧
    ((∀ j, s.call ≠ some (.encodeToBuffer j)) → s'.buffer = s.buffer ∧ s'.draws = s.draws) ∧
    (s.call = none → s' = s)

/-- A step runs the instruction its call is about: decoded from `dec_word` or from the buffer, built by its
constructor, or given. With no call a step changes nothing (the model's choice, log entry 3). -/
def Obligations.AStepRunsTheInstructionOfItsCall : Prop :=
  ∀ (s : State),
    (s.call = none → step s = .next s) ∧
    (∀ (w : Word) (i : Instr), s.call = some (.decode w) → decode s.config w = .ok i →
      step s = exec i s) ∧
    (∀ (n : Nat) (i : Instr), decode s.config (BitVec.ofNat 16 (n % 2 ^ 16)) = .ok i →
      step (s.withFetchWord 16 n) = exec i (s.withFetchWord 16 n)) ∧
    (∀ (b0 b1 : Byte) (i : Instr), s.call = some .decodeFromBuffer → s.racers = [] →
      s.buffer.read 0 = some b0 → s.buffer.read 1 = some b1 →
      decode s.config (wordOfBytes b0 b1) = .ok i → step s = exec i s) ∧
    (∀ (o : Operands) (d : Nat) (i : Instr), s.call = some (.construct o d) →
      construct s.config o d = .ok i → step s = exec i s) ∧
    (∀ (i : Instr) (r : Resolver),
      (s.call = some (.encode i) ∨ s.call = some (.encodeToBuffer i) ∨
        s.call = some (.toAssemblyText i r)) → step s = exec i s)

/-- Words written out from the formats of 30_encoding.md R65 to R73 decode to the instructions they stand
for. -/
def Obligations.WordsWrittenOutDecodeAsTheyStand : Prop :=
  decode Config.default 0b0000000001011111#16 = .ok (.jump .xPostDec 31) ∧
  decode Config.default 0b0010000011010011#16 = .ok (.wait 1 .irq 19) ∧
  decode Config.default 0b0100000000100000#16 = .ok (.shiftIn .x 32) ∧
  decode Config.default 0b0110000011110000#16 = .ok (.shiftOut .exec 16) ∧
  decode Config.default 0b1000000000100000#16 = .ok (.push false true) ∧
  decode Config.default 0b1000000010100000#16 = .ok (.pull false true) ∧
  decode Config.default 0b1010000011110110#16 = .ok (.move .osr .bitReverse .isr) ∧
  decode Config.default 0b1100000000010011#16 = .ok (.irq false false 19) ∧
  decode Config.default 0b1110000010000001#16 = .ok (.set .pinDirs 1)

/-- After reset no operation is in progress, no output is valid (log entry 3) and the parameters are R6's defaults
(log entry 2: R241 has reset set none). The model's reset input `applyReset` (log entry 12) drops the call and the
outputs, which R241 leaves undefined, and touches neither the parameters nor the caller's buffer (R241); a call
presented after it runs as if there had been no reset (R240, R242). -/
def Obligations.ResetDropsTheOperationOnly : Prop :=
  (State.reset.call = none ∧ State.reset.result = none ∧ State.reset.config = Config.default) ∧
  ∀ s : State, (applyReset s).call = none ∧ (applyReset s).result = none ∧
    (applyReset s).config = s.config ∧ (applyReset s).buffer = s.buffer ∧
    ∀ c : Call, step { applyReset s with call := some c } = step { s with call := some c }
end

