-- ==== Sys2Proof/Laws/Encoding.lean ====
section
/-! SUPPORT. What each unpacker answers, with the constructor it goes through evaluated (42_decode.md R155), and
what each field of a packed word is. -/

namespace Sys2Proof

/-! ### Lookup -/

/-- `Lookup` succeeds exactly on the patterns of the enumeration, with the enumerator of that pattern. -/
theorem lookup_eq_ok {ε : Type} {n : Nat} {all : List ε} {pattern : ε → BitVec n} {field : Field}
    {p : BitVec n} {e : ε} (h : lookup all pattern field p = .ok e) : pattern e = p ∧ e ∈ all := by
  unfold lookup at h
  split at h
  · next e' he =>
    injection h with h
    subst h
    exact ⟨by simpa using List.find?_some he, List.mem_of_find?_eq_some he⟩
  · simp [unrecognizedValue] at h

/-- The only error of `Lookup` names the field and its pattern (R154), and no enumerator has it. -/
theorem lookup_eq_error {ε : Type} {n : Nat} {all : List ε} {pattern : ε → BitVec n} {field : Field}
    {p : BitVec n} {x : Error} (h : lookup all pattern field p = .error x) :
    x = { kind := .unrecognizedValue, field := field, value := p.toNat } ∧
      ∀ e ∈ all, pattern e ≠ p := by
  unfold lookup at h
  split at h
  · cases h
  · next hn =>
    simp only [unrecognizedValue, Except.error.injEq] at h
    exact ⟨h.symm, fun e he hp => by simpa [hp] using List.find?_eq_none.1 hn e he⟩

@[simp] theorem lookup_jumpCondition (f : Field) (c : JumpCondition) :
    lookup JumpCondition.all JumpCondition.pattern f c.pattern = .ok c := by cases c <;> rfl
@[simp] theorem lookup_waitSource (f : Field) (s : WaitSource) :
    lookup WaitSource.all WaitSource.pattern f s.pattern = .ok s := by cases s <;> rfl
@[simp] theorem lookup_inSource (f : Field) (s : InSource) :
    lookup InSource.all InSource.pattern f s.pattern = .ok s := by cases s <;> rfl
@[simp] theorem lookup_outDestination (f : Field) (d : OutDestination) :
    lookup OutDestination.all OutDestination.pattern f d.pattern = .ok d := by cases d <;> rfl
@[simp] theorem lookup_movDestination (f : Field) (d : MovDestination) :
    lookup MovDestination.all MovDestination.pattern f d.pattern = .ok d := by cases d <;> rfl
@[simp] theorem lookup_movOperation (f : Field) (o : MovOperation) :
    lookup MovOperation.all MovOperation.pattern f o.pattern = .ok o := by cases o <;> rfl
@[simp] theorem lookup_movSource (f : Field) (s : MovSource) :
    lookup MovSource.all MovSource.pattern f s.pattern = .ok s := by cases s <;> rfl
@[simp] theorem lookup_setDestination (f : Field) (d : SetDestination) :
    lookup SetDestination.all SetDestination.pattern f d.pattern = .ok d := by cases d <;> rfl

/-! ### The constructors, on operands that a decode gives them -/

/-- The bit count that a count field stands for (30_encoding.md R82), as an instruction holds it. -/
def bitCountOf (f : BitVec 5) : BitCount := Fin.ofNat 33 (bitCountOfField f)

theorem bitCountOf_ne_zero (f : BitVec 5) : bitCountOf f ≠ 0 := by
  revert f; decide

@[simp] theorem fieldOfBitCount_bitCountOf (f : BitVec 5) : fieldOfBitCount (bitCountOf f) = f := by
  revert f; decide

theorem bitCountOf_fieldOfBitCount {n : BitCount} (h : n ≠ 0) :
    bitCountOf (fieldOfBitCount n) = n := by
  revert n; decide

@[simp] theorem afterDelaySideSet_zero {α : Type} (k : Except Error α) :
    afterDelaySideSet 0 k = k := rfl

/-- Under both conventions the count of a field is accepted (42_decode.md R146). -/
theorem storedBitCount_of_field (c : BitCountConvention) (field : Field) (f : BitVec 5) :
    storedBitCount c field (bitCountOfField f) = .ok (bitCountOf f) := by
  have h₁ : bitCountOfField f ≠ 0 := by revert f; decide
  have h₂ : ¬ bitCountOfField f > 32 := by revert f; decide
  cases c
  · simp [storedBitCount, h₁, h₂, bitCountOf]
  · simp [storedBitCount, h₁, h₂, bitCountOf]

/-- What a stored bit count is, and when it is accepted (40_construction.md R103). -/
theorem storedBitCount_eq_ok {c : BitCountConvention} {field : Field} {n : Nat} {b : BitCount}
    (h : storedBitCount c field n = .ok b) : b ≠ 0 ∧ n ≤ 32 ∧ b.val = if n = 0 then 32 else n := by
  cases c
  · simp only [storedBitCount] at h
    split at h
    · simp [outOfRange] at h
    · next hn =>
      injection h with h
      subst h
      have hlt : n < 33 := by omega
      refine ⟨fun h0 => ?_, by omega, ?_⟩
      · have h0' := congrArg Fin.val h0
        simp only [Fin.ofNat, Nat.mod_eq_of_lt hlt] at h0'
        exact hn (.inl h0')
      · simp only [Fin.ofNat, Nat.mod_eq_of_lt hlt]
        rw [if_neg (by omega)]
  · simp only [storedBitCount] at h
    split at h
    · simp [outOfRange] at h
    · next hn =>
      injection h with h
      subst h
      have hlt : (if n = 0 then 32 else n) < 33 := by split <;> omega
      refine ⟨fun h0 => ?_, by omega, ?_⟩
      · have h0' := congrArg Fin.val h0
        simp only [Fin.ofNat, Nat.mod_eq_of_lt hlt] at h0'
        change _ = 0 at h0'
        split at h0' <;> omega
      · simp only [Fin.ofNat, Nat.mod_eq_of_lt hlt]

/-! ### The unpackers -/

theorem unpackJump_eq (w : Word) :
    unpackJump w = (lookup JumpCondition.all JumpCondition.pattern .jumpCondition (field75 w)).map
      (fun c => .jump c (field40 w)) := by
  have h : ¬ (field40 w).toNat > 31 := by have := (field40 w).isLt; omega
  unfold unpackJump
  cases lookup JumpCondition.all JumpCondition.pattern .jumpCondition (field75 w) <;>
    simp [bind, Except.bind, Except.map, constructJump, h]

theorem unpackWait_eq (w : Word) :
    unpackWait w = (lookup WaitSource.all WaitSource.pattern .waitSource (w.extractLsb' 5 2)).map
      (fun s => .wait (w.extractLsb' 7 1) s (field40 w)) := by
  have h : ¬ (field40 w).toNat > 31 := by have := (field40 w).isLt; omega
  have h' : ¬ (w.extractLsb' 7 1).toNat > 1 := by have := (w.extractLsb' 7 1).isLt; omega
  unfold unpackWait
  cases lookup WaitSource.all WaitSource.pattern .waitSource (w.extractLsb' 5 2)
  · rfl
  · simp only [bind, Except.bind, Except.map, constructWait, afterDelaySideSet_zero, if_neg h,
      if_neg h', BitVec.ofNat_toNat, BitVec.setWidth_eq]

theorem unpackShiftIn_eq (config : Config) (w : Word) :
    unpackShiftIn config w = (lookup InSource.all InSource.pattern .shiftInSource (field75 w)).map
      (fun s => .shiftIn s (bitCountOf (field40 w))) := by
  unfold unpackShiftIn
  cases lookup InSource.all InSource.pattern .shiftInSource (field75 w) <;>
    simp [bind, Except.bind, Except.map, constructShiftIn, storedBitCount_of_field]

theorem unpackShiftOut_eq (config : Config) (w : Word) :
    unpackShiftOut config w =
      (lookup OutDestination.all OutDestination.pattern .shiftOutDestination (field75 w)).map
        (fun d => .shiftOut d (bitCountOf (field40 w))) := by
  unfold unpackShiftOut
  cases lookup OutDestination.all OutDestination.pattern .shiftOutDestination (field75 w) <;>
    simp [bind, Except.bind, Except.map, constructShiftOut, storedBitCount_of_field]

theorem unpackPush_eq (config : Config) (w : Word) :
    unpackPush config w = afterUnusedBits config .pushUnused (field40 w).toNat
      (.ok (.push (w.getLsbD 6) (w.getLsbD 5))) := rfl

theorem unpackPull_eq (config : Config) (w : Word) :
    unpackPull config w = afterUnusedBits config .pullUnused (field40 w).toNat
      (.ok (.pull (w.getLsbD 6) (w.getLsbD 5))) := rfl

theorem unpackMove_eq (w : Word) :
    unpackMove w = (do
      let d ← lookup MovDestination.all MovDestination.pattern .moveDestination (field75 w)
      let o ← lookup MovOperation.all MovOperation.pattern .moveOperation (w.extractLsb' 3 2)
      let s ← lookup MovSource.all MovSource.pattern .moveSource (w.extractLsb' 0 3)
      .ok (.move d o s)) := rfl

theorem unpackIrq_eq (config : Config) (w : Word) :
    unpackIrq config w = afterUnusedBits config .irqUnused (w.extractLsb' 7 1).toNat
      (.ok (.irq (w.getLsbD 6) (w.getLsbD 5) (field40 w))) := by
  have h : ¬ (field40 w).toNat > 31 := by have := (field40 w).isLt; omega
  simp [unpackIrq, constructIrq, h]

theorem unpackSet_eq (w : Word) :
    unpackSet w = (lookup SetDestination.all SetDestination.pattern .setDestination (field75 w)).map
      (fun d => .set d (field40 w)) := by
  have h : ¬ (field40 w).toNat > 31 := by have := (field40 w).isLt; omega
  unfold unpackSet
  cases lookup SetDestination.all SetDestination.pattern .setDestination (field75 w) <;>
    simp [bind, Except.bind, Except.map, constructSet, h]

/-! ### The decoder under each policy -/

/-- Under `Ignore` the decoder is its dispatch (42_decode.md R153). -/
theorem decode_of_ignore {config : Config} (h : config.unusedBits = .ignore) (w : Word) :
    decode config w = dispatch config (tagOf w).toNat w := by
  simp [decode, afterDelaySideSetBits, h]

/-- With bits 12:8 at 0 the decoder is its dispatch, under both policies. -/
theorem decode_of_no_sideSet (config : Config) {w : Word} (h : delaySideSetOf w = 0) :
    decode config w = dispatch config (tagOf w).toNat w := by
  simp only [decode, afterDelaySideSetBits, h]
  cases config.unusedBits <;> rfl

/-- Under `Reject` non-zero bits 12:8 are refused before anything else (60_exceptions.md R219). -/
theorem decode_of_sideSet {config : Config} (h : config.unusedBits = .reject) {w : Word}
    (hw : delaySideSetOf w ≠ 0) :
    decode config w =
      .error { kind := .unsupported, field := .delaySideSet, value := (delaySideSetOf w).toNat } := by
  have : (delaySideSetOf w).toNat ≠ 0 := fun h0 => hw (BitVec.eq_of_toNat_eq h0)
  simp [decode, afterDelaySideSetBits, h, afterDelaySideSet, this]

/-- The decoder uses no parameter but `UNUSED_BITS_POLICY` (00_scope.md R6). -/
theorem decode_congr {config config' : Config} (h : config.unusedBits = config'.unusedBits) (w : Word) :
    decode config w = decode config' w := by
  have hd : dispatch config (tagOf w).toNat w = dispatch config' (tagOf w).toNat w := by
    unfold dispatch
    simp only [unpackShiftIn_eq, unpackShiftOut_eq, unpackPush_eq, unpackPull_eq, unpackIrq_eq,
      afterUnusedBits, h]
  simp only [decode, afterDelaySideSetBits, h, hd]

/-! ### The fields of a packed word -/

section Packed

variable (c : JumpCondition) (t : Addr5) (p : Bit1) (ws : WaitSource) (i : Index5) (is : InSource)
  (n : BitCount) (od : OutDestination) (f b : Bool) (md : MovDestination) (mo : MovOperation)
  (ms : MovSource) (sd : SetDestination) (v : Data5)

@[simp] theorem tagOf_packJump : tagOf (packJump c t) = 0 := by revert t; cases c <;> decide
@[simp] theorem tagOf_packWait : tagOf (packWait p ws i) = 1 := by
  revert p i; cases ws <;> decide
@[simp] theorem tagOf_packShiftIn : tagOf (packShiftIn is n) = 2 := by revert n; cases is <;> decide
@[simp] theorem tagOf_packShiftOut : tagOf (packShiftOut od n) = 3 := by
  revert n; cases od <;> decide
@[simp] theorem tagOf_packPush : tagOf (packPush f b) = 4 := by cases f <;> cases b <;> rfl
@[simp] theorem tagOf_packPull : tagOf (packPull f b) = 4 := by cases f <;> cases b <;> rfl
@[simp] theorem tagOf_packMove : tagOf (packMove md mo ms) = 5 := by
  cases md <;> cases mo <;> cases ms <;> rfl
@[simp] theorem tagOf_packIrq : tagOf (packIrq f b i) = 6 := by
  revert i; cases f <;> cases b <;> decide
@[simp] theorem tagOf_packSet : tagOf (packSet sd v) = 7 := by revert v; cases sd <;> decide

@[simp] theorem field75_packJump : field75 (packJump c t) = c.pattern := by
  revert t; cases c <;> decide
@[simp] theorem field40_packJump : field40 (packJump c t) = t := by revert t; cases c <;> decide
@[simp] theorem polarity_packWait : (packWait p ws i).extractLsb' 7 1 = p := by
  revert p i; cases ws <;> decide
@[simp] theorem source_packWait : (packWait p ws i).extractLsb' 5 2 = ws.pattern := by
  revert p i; cases ws <;> decide
@[simp] theorem field40_packWait : field40 (packWait p ws i) = i := by
  revert p i; cases ws <;> decide
@[simp] theorem field75_packShiftIn : field75 (packShiftIn is n) = is.pattern := by
  revert n; cases is <;> decide
@[simp] theorem field40_packShiftIn : field40 (packShiftIn is n) = fieldOfBitCount n := by
  revert n; cases is <;> decide
@[simp] theorem field75_packShiftOut : field75 (packShiftOut od n) = od.pattern := by
  revert n; cases od <;> decide
@[simp] theorem field40_packShiftOut : field40 (packShiftOut od n) = fieldOfBitCount n := by
  revert n; cases od <;> decide
@[simp] theorem field75_packMove : field75 (packMove md mo ms) = md.pattern := by
  cases md <;> cases mo <;> cases ms <;> rfl
@[simp] theorem operation_packMove : (packMove md mo ms).extractLsb' 3 2 = mo.pattern := by
  cases md <;> cases mo <;> cases ms <;> rfl
@[simp] theorem source_packMove : (packMove md mo ms).extractLsb' 0 3 = ms.pattern := by
  cases md <;> cases mo <;> cases ms <;> rfl
@[simp] theorem pullBit_packPush : (packPush f b)[7] = false := by cases f <;> cases b <;> rfl
@[simp] theorem ifFull_packPush : (packPush f b)[6] = f := by cases f <;> cases b <;> rfl
@[simp] theorem block_packPush : (packPush f b)[5] = b := by cases f <;> cases b <;> rfl
@[simp] theorem field40_packPush : field40 (packPush f b) = 0 := by cases f <;> cases b <;> rfl
@[simp] theorem pullBit_packPull : (packPull f b)[7] = true := by cases f <;> cases b <;> rfl
@[simp] theorem ifEmpty_packPull : (packPull f b)[6] = f := by cases f <;> cases b <;> rfl
@[simp] theorem block_packPull : (packPull f b)[5] = b := by cases f <;> cases b <;> rfl
@[simp] theorem field40_packPull : field40 (packPull f b) = 0 := by cases f <;> cases b <;> rfl
@[simp] theorem unused_packIrq : (packIrq f b i).extractLsb' 7 1 = 0 := by
  revert i; cases f <;> cases b <;> decide
@[simp] theorem clear_packIrq : (packIrq f b i)[6] = f := by
  revert i; cases f <;> cases b <;> decide
@[simp] theorem wait_packIrq : (packIrq f b i)[5] = b := by
  revert i; cases f <;> cases b <;> decide
@[simp] theorem field40_packIrq : field40 (packIrq f b i) = i := by
  revert i; cases f <;> cases b <;> decide
@[simp] theorem field75_packSet : field75 (packSet sd v) = sd.pattern := by
  revert v; cases sd <;> decide
@[simp] theorem field40_packSet : field40 (packSet sd v) = v := by revert v; cases sd <;> decide

/-- The encoder writes 0 to the delay/side-set field (41_encode.md R130). -/
@[simp] theorem delaySideSetOf_encode (x : Instr) : delaySideSetOf (encode x) = 0 := by
  cases x with
  | jump c t => show delaySideSetOf (packJump c t) = 0; revert t; cases c <;> decide
  | wait p s k => show delaySideSetOf (packWait p s k) = 0; revert p k; cases s <;> decide
  | shiftIn s n => show delaySideSetOf (packShiftIn s n) = 0; revert n; cases s <;> decide
  | shiftOut d n => show delaySideSetOf (packShiftOut d n) = 0; revert n; cases d <;> decide
  | push f b => cases f <;> cases b <;> rfl
  | pull f b => cases f <;> cases b <;> rfl
  | move d o s => cases d <;> cases o <;> cases s <;> rfl
  | irq f b k => show delaySideSetOf (packIrq f b k) = 0; revert k; cases f <;> cases b <;> decide
  | set d v => show delaySideSetOf (packSet d v) = 0; revert v; cases d <;> decide

end Packed

/-! ### Bytes -/

/-- A word is its two bytes (20_memory.md R43). -/
@[simp] theorem wordOfBytes_low_high (w : Word) : wordOfBytes (lowByte w) (highByte w) = w := by
  unfold wordOfBytes lowByte highByte
  ext i hi
  simp only [BitVec.getElem_append, BitVec.getElem_extractLsb']
  split
  · simp [BitVec.getLsbD_eq_getElem hi]
  · next h =>
    have : 8 + (i - 8) = i := by omega
    simp [this, BitVec.getLsbD_eq_getElem hi]

@[simp] theorem lowByte_wordOfBytes (b0 b1 : Byte) : lowByte (wordOfBytes b0 b1) = b0 := by
  unfold lowByte wordOfBytes
  apply BitVec.eq_of_getLsbD_eq
  intro i hi
  rw [BitVec.getLsbD_extractLsb']
  erw [BitVec.getLsbD_append]
  simp [hi]

@[simp] theorem highByte_wordOfBytes (b0 b1 : Byte) : highByte (wordOfBytes b0 b1) = b1 := by
  unfold highByte wordOfBytes
  apply BitVec.eq_of_getLsbD_eq
  intro i hi
  rw [BitVec.getLsbD_extractLsb']
  erw [BitVec.getLsbD_append]
  simp [hi]

end Sys2Proof
end

