-- ==== Sys2Proof/Laws/Memory.lean ====
section
/-! SUPPORT. The laws of the caller's buffer: read after write, the canonical form, and the word store. -/

namespace Sys2Proof.Machine

/-! ### The list of cells -/

theorem byteIn_of_below {cells : List Host.Cell} {i : Nat} (h : ∀ c ∈ cells, i < c.1) :
    byteIn cells i = Memory.unlisted := by
  induction cells with
  | nil => rfl
  | cons c rest ih =>
    obtain ⟨a, b⟩ := c
    have ha : i < a := h (a, b) (by simp)
    simp only [byteIn]
    rw [if_neg (by omega)]
    exact ih (fun c hc => h c (List.mem_cons_of_mem _ hc))

/-- Reading the index just written gives the byte written. -/
theorem byteIn_cellsWith_same {cells : List Host.Cell} (hs : cells.Pairwise (fun c d => c.1 < d.1))
    (i : Nat) (b : Byte) : byteIn (cellsWith cells i b) i = b := by
  induction cells with
  | nil =>
    simp only [cellsWith]
    split
    · next h => simp [byteIn, h]
    · simp [byteIn]
  | cons c rest ih =>
    obtain ⟨a, x⟩ := c
    rw [List.pairwise_cons] at hs
    simp only [cellsWith]
    split
    · next h =>
      simp only [byteIn]
      rw [if_neg (by omega)]
      exact ih hs.2
    · next h =>
      split
      · next hb =>
        subst hb
        split
        · next ha => subst ha; exact byteIn_of_below hs.1
        · next ha =>
          apply byteIn_of_below
          intro c hc
          rcases List.mem_cons.1 hc with rfl | hc
          · show i < a; omega
          · have := hs.1 c hc
            simp only at this; omega
      · simp [byteIn]

/-- Writing one index leaves every other as it was. -/
theorem byteIn_cellsWith_other (cells : List Host.Cell) (i : Nat) (b : Byte) {j : Nat} (hj : j ≠ i) :
    byteIn (cellsWith cells i b) j = byteIn cells j := by
  induction cells with
  | nil =>
    simp only [cellsWith]
    split
    · rfl
    · simp [byteIn, Ne.symm hj]
  | cons c rest ih =>
    obtain ⟨a, x⟩ := c
    simp only [cellsWith]
    split
    · simp only [byteIn, ih]
    · split <;> split <;> simp_all [byteIn, Ne.symm hj]

/-- Which cells a write leaves: the byte written, or one of before. -/
theorem mem_cellsWith {cells : List Host.Cell} {i : Nat} {b : Byte} {c : Host.Cell}
    (h : c ∈ cellsWith cells i b) : (c = (i, b) ∧ b ≠ Memory.unlisted) ∨ c ∈ cells := by
  induction cells with
  | nil =>
    simp only [cellsWith] at h
    split at h
    · simp at h
    · next hb => exact .inl ⟨by simpa using h, hb⟩
  | cons d rest ih =>
    obtain ⟨a, x⟩ := d
    simp only [cellsWith] at h
    split at h
    · rcases List.mem_cons.1 h with rfl | h
      · simp
      · rcases ih h with h | h
        · exact .inl h
        · exact .inr (List.mem_cons_of_mem _ h)
    · split at h
      · split at h
        · exact .inr (List.mem_cons_of_mem _ h)
        · exact .inr h
      · next hb =>
        rcases List.mem_cons.1 h with rfl | h
        · exact .inl ⟨rfl, hb⟩
        · split at h
          · exact .inr (List.mem_cons_of_mem _ h)
          · exact .inr h

/-- A write keeps the indices strictly rising. -/
theorem pairwise_cellsWith {cells : List Host.Cell} (hs : cells.Pairwise (fun c d => c.1 < d.1))
    (i : Nat) (b : Byte) : (cellsWith cells i b).Pairwise (fun c d => c.1 < d.1) := by
  induction cells with
  | nil =>
    simp only [cellsWith]
    split <;> simp
  | cons c rest ih =>
    obtain ⟨a, x⟩ := c
    have hs' := List.pairwise_cons.1 hs
    simp only [cellsWith]
    split
    · next h =>
      rw [List.pairwise_cons]
      refine ⟨fun c hc => ?_, ih hs'.2⟩
      rcases mem_cellsWith hc with ⟨rfl, -⟩ | hc
      · exact h
      · exact hs'.1 c hc
    · next h =>
      have habove : (if a = i then rest else (a, x) :: rest).Pairwise
          (fun (c d : Host.Cell) => c.1 < d.1) := by
        split
        · exact hs'.2
        · exact hs
      split
      · exact habove
      · rw [List.pairwise_cons]
        refine ⟨fun c hc => ?_, habove⟩
        split at hc
        · next ha => have := hs'.1 c hc; simp only at this ⊢; omega
        · next ha =>
          rcases List.mem_cons.1 hc with rfl | hc
          · simp only; omega
          · have := hs'.1 c hc; simp only at this ⊢; omega

/-! ### The buffer -/

variable {m m' : Memory} {i : Nat} {b : Byte} {w : Word}

theorem write_eq_some :
    m.write i b = some m' ↔ i < m.size ∧ m' = { m with cells := cellsWith m.cells i b } := by
  unfold Memory.write
  split <;> simp_all [eq_comm]

theorem read_isSome : (m.read i).isSome = true ↔ i < m.size := by
  unfold Memory.read; split <;> simp_all

/-- A write does not change the length (43_buffers.md R173). -/
theorem write_size (h : m.write i b = some m') : m'.size = m.size := by
  obtain ⟨-, rfl⟩ := write_eq_some.1 h; rfl

/-- Reading the byte just written gives it. -/
theorem read_write_same (hm : m.wf) (h : m.write i b = some m') : m'.read i = some b := by
  obtain ⟨hi, rfl⟩ := write_eq_some.1 h
  simp only [Memory.read]
  rw [if_pos hi, byteIn_cellsWith_same hm.1]

/-- A write leaves every other byte alone. -/
theorem read_write_other (h : m.write i b = some m') {j : Nat} (hj : j ≠ i) :
    m'.read j = m.read j := by
  obtain ⟨-, rfl⟩ := write_eq_some.1 h
  simp only [Memory.read, byteIn_cellsWith_other _ _ _ hj]

/-- A write keeps the canonical form. -/
theorem write_wf (hm : m.wf) (h : m.write i b = some m') : m'.wf := by
  obtain ⟨hi, rfl⟩ := write_eq_some.1 h
  refine ⟨pairwise_cellsWith hm.1 i b, fun c hc => ?_⟩
  rcases mem_cellsWith hc with ⟨rfl, hb⟩ | hc
  · exact ⟨hi, hb⟩
  · exact hm.2 c hc

theorem writeWord_isSome : (m.writeWord w).isSome = true ↔ 2 ≤ m.size := by
  unfold Memory.writeWord Memory.write
  by_cases h0 : 0 < m.size <;> by_cases h1 : 1 < m.size <;> simp [h0, h1] <;> omega

/-- The word store in its two writes. -/
theorem writeWord_eq_some (h : m.writeWord w = some m') :
    ∃ m₁, m.write 0 (lowByte w) = some m₁ ∧ m₁.write 1 (highByte w) = some m' := by
  simpa [Memory.writeWord, Option.bind_eq_some_iff] using h

theorem writeWord_size (h : m.writeWord w = some m') : m'.size = m.size := by
  obtain ⟨m₁, h₁, h₂⟩ := writeWord_eq_some h
  rw [write_size h₂, write_size h₁]

theorem writeWord_wf (hm : m.wf) (h : m.writeWord w = some m') : m'.wf := by
  obtain ⟨m₁, h₁, h₂⟩ := writeWord_eq_some h
  exact write_wf (write_wf hm h₁) h₂

/-- Little-endian (20_memory.md R43): `w[7:0]` at index 0. -/
theorem read_writeWord_zero (hm : m.wf) (h : m.writeWord w = some m') :
    m'.read 0 = some (lowByte w) := by
  obtain ⟨m₁, h₁, h₂⟩ := writeWord_eq_some h
  rw [read_write_other h₂ (by decide), read_write_same hm h₁]

/-- Little-endian (20_memory.md R43): `w[15:8]` at index 1. -/
theorem read_writeWord_one (hm : m.wf) (h : m.writeWord w = some m') :
    m'.read 1 = some (highByte w) := by
  obtain ⟨m₁, h₁, h₂⟩ := writeWord_eq_some h
  exact read_write_same (write_wf hm h₁) h₂

/-- Bytes beyond the word are left unchanged (43_buffers.md R173). -/
theorem read_writeWord_beyond (h : m.writeWord w = some m') {j : Nat} (hj : 2 ≤ j) :
    m'.read j = m.read j := by
  obtain ⟨m₁, h₁, h₂⟩ := writeWord_eq_some h
  rw [read_write_other h₂ (by omega), read_write_other h₁ (by omega)]

/-- The word of a buffer in its two bytes. -/
theorem readWord_eq_some :
    m.readWord = some w ↔
      ∃ b0 b1, m.read 0 = some b0 ∧ m.read 1 = some b1 ∧ w = wordOfBytes b0 b1 := by
  unfold Memory.readWord
  cases m.read 0 <;> cases m.read 1 <;> simp [eq_comm]

/-- A word can be read exactly when both of its bytes exist. -/
theorem readWord_isSome : m.readWord.isSome = true ↔ 2 ≤ m.size := by
  unfold Memory.readWord Memory.read
  by_cases h0 : 0 < m.size <;> by_cases h1 : 1 < m.size <;> simp [h0, h1] <;> omega

/-! ### Buffers from bytes -/

theorem cellsFrom_index {k : Nat} {bytes : List Byte} {c : Host.Cell}
    (h : c ∈ Memory.ofBytes.cellsFrom k bytes) :
    k ≤ c.1 ∧ c.1 < k + bytes.length ∧ c.2 ≠ Memory.unlisted := by
  induction bytes generalizing k with
  | nil => simp [Memory.ofBytes.cellsFrom] at h
  | cons b rest ih =>
    simp only [Memory.ofBytes.cellsFrom] at h
    simp only [List.length_cons]
    split at h
    · obtain ⟨h₁, h₂, h₃⟩ := ih h
      exact ⟨by omega, by omega, h₃⟩
    · next hb =>
      rcases List.mem_cons.1 h with rfl | h
      · exact ⟨Nat.le_refl k, Nat.lt_add_of_pos_right (Nat.succ_pos _), hb⟩
      · obtain ⟨h₁, h₂, h₃⟩ := ih h
        exact ⟨by omega, by omega, h₃⟩

/-- A buffer made of bytes is in canonical form. -/
theorem ofBytes_wf (bytes : List Byte) : (Memory.ofBytes bytes).wf := by
  refine ⟨?_, fun c hc => ?_⟩
  · show (Memory.ofBytes.cellsFrom 0 bytes).Pairwise _
    generalize 0 = k
    induction bytes generalizing k with
    | nil => exact .nil
    | cons b rest ih =>
      simp only [Memory.ofBytes.cellsFrom]
      split
      · exact ih _
      · exact List.pairwise_cons.2 ⟨fun c hc => (cellsFrom_index hc).1, ih _⟩
  · obtain ⟨-, h, h'⟩ := cellsFrom_index hc
    exact ⟨by simpa [Memory.ofBytes] using h, h'⟩

theorem byteIn_cellsFrom (bytes : List Byte) (k i : Nat) :
    byteIn (Memory.ofBytes.cellsFrom k bytes) (k + i) = bytes.getD i Memory.unlisted := by
  induction bytes generalizing k i with
  | nil => simp [Memory.ofBytes.cellsFrom, byteIn]
  | cons b rest ih =>
    simp only [Memory.ofBytes.cellsFrom]
    cases i with
    | zero =>
      have hrest : byteIn (Memory.ofBytes.cellsFrom (k + 1) rest) k = Memory.unlisted :=
        byteIn_of_below (fun c hc => (cellsFrom_index hc).1)
      split
      · next hb => simpa [hb] using hrest
      · simp [byteIn]
    | succ i =>
      have := ih (k + 1) i
      rw [show k + (i + 1) = k + 1 + i by omega]
      split
      · simpa using this
      · simp only [byteIn]
        rw [if_neg (by omega)]
        simpa using this

/-- Reading a buffer made of bytes gives its bytes. -/
theorem read_ofBytes (bytes : List Byte) (i : Nat) : (Memory.ofBytes bytes).read i = bytes[i]? := by
  have h := byteIn_cellsFrom bytes 0 i
  simp only [Nat.zero_add] at h
  show (if i < bytes.length then some (byteIn (Memory.ofBytes.cellsFrom 0 bytes) i) else none) = _
  split
  · next hi => simp [h, hi]
  · next hi => simp [List.getElem?_eq_none (Nat.le_of_not_lt hi)]

end Sys2Proof.Machine
end

