-- ==== Sys2Proof/Laws/State.lean ====
section
/-! SUPPORT. One lemma for each field of each update of State. -/

namespace Sys2Proof.Machine

variable (s : State) (r : Result) (m : Memory)

@[simp] theorem finish_config : (s.finish r).config = s.config := rfl
@[simp] theorem finish_call : (s.finish r).call = none := rfl
@[simp] theorem finish_buffer : (s.finish r).buffer = s.buffer := rfl
@[simp] theorem finish_racers : (s.finish r).racers = s.racers := rfl
@[simp] theorem finish_draws : (s.finish r).draws = s.draws := rfl
@[simp] theorem finish_result : (s.finish r).result = some r := rfl

@[simp] theorem setBuffer_config : (s.setBuffer m).config = s.config := rfl
@[simp] theorem setBuffer_call : (s.setBuffer m).call = s.call := rfl
@[simp] theorem setBuffer_buffer : (s.setBuffer m).buffer = m := rfl
@[simp] theorem setBuffer_racers : (s.setBuffer m).racers = s.racers := rfl
@[simp] theorem setBuffer_draws : (s.setBuffer m).draws = s.draws := rfl
@[simp] theorem setBuffer_result : (s.setBuffer m).result = s.result := rfl

@[simp] theorem countDraw_config : s.countDraw.config = s.config := by
  unfold State.countDraw; split <;> rfl
@[simp] theorem countDraw_call : s.countDraw.call = s.call := by
  unfold State.countDraw; split <;> rfl
@[simp] theorem countDraw_buffer : s.countDraw.buffer = s.buffer := by
  unfold State.countDraw; split <;> rfl
@[simp] theorem countDraw_racers : s.countDraw.racers = s.racers := by
  unfold State.countDraw; split <;> rfl
@[simp] theorem countDraw_result : s.countDraw.result = s.result := by
  unfold State.countDraw; split <;> rfl

/-- With no racing writer, reading changes nothing (20_memory.md R49). -/
theorem countDraw_of_no_race (h : s.racers = []) : s.countDraw = s := by
  unfold State.countDraw; rw [h]

@[simp] theorem applyReset_config : (applyReset s).config = s.config := rfl
@[simp] theorem applyReset_call : (applyReset s).call = none := rfl
@[simp] theorem applyReset_buffer : (applyReset s).buffer = s.buffer := rfl
@[simp] theorem applyReset_racers : (applyReset s).racers = s.racers := rfl
@[simp] theorem applyReset_draws : (applyReset s).draws = s.draws := rfl
@[simp] theorem applyReset_result : (applyReset s).result = none := rfl

/-! What a raced read leaves: every field but the buffer and the counter stays. -/

variable (x : Word)

@[simp] theorem settle_config : (s.settle x).config = s.config := by
  unfold State.settle; split <;> [rfl; split <;> simp]
@[simp] theorem settle_call : (s.settle x).call = s.call := by
  unfold State.settle; split <;> [rfl; split <;> simp]
@[simp] theorem settle_racers : (s.settle x).racers = s.racers := by
  unfold State.settle; split <;> [rfl; split <;> simp]
@[simp] theorem settle_result : (s.settle x).result = s.result := by
  unfold State.settle; split <;> [rfl; split <;> simp]

/-- With no racing writer a read leaves the buffer as it was (20_memory.md R49). -/
theorem settle_of_no_race (h : s.racers = []) : s.settle x = s := by
  unfold State.settle; rw [h]

variable (nbits w : Nat)

@[simp] theorem withFetchWord_config : (s.withFetchWord nbits w).config = s.config := rfl
@[simp] theorem withFetchWord_call :
    (s.withFetchWord nbits w).call = some (.decode (BitVec.ofNat 16 (w % 2 ^ nbits))) := rfl
@[simp] theorem withFetchWord_buffer : (s.withFetchWord nbits w).buffer = s.buffer := rfl
@[simp] theorem withFetchWord_racers : (s.withFetchWord nbits w).racers = s.racers := rfl
@[simp] theorem withFetchWord_draws : (s.withFetchWord nbits w).draws = s.draws := rfl
@[simp] theorem withFetchWord_result : (s.withFetchWord nbits w).result = s.result := rfl

end Sys2Proof.Machine
end

