-- ==== Sys2Proof/Laws/Ops.lean ====
section
/-! SUPPORT. What each shared operation can do, said once: storing a word, reading one, coming by a call's
instruction, running an instruction, and a step. -/

namespace Sys2Proof.Machine

variable {s s' : State} {i : Instr} {w : Word}

/-! ### Races -/

/-- With no racing writer a word is shown and left as it is. -/
theorem racedWord_of_no_race (h : s.racers = []) (w : Word) (others : List Word) :
    racedWord s w others = w := by
  unfold racedWord; rw [h]

/-- Under a race each byte is that of one of the words, whatever the free choice (20_memory.md R53). -/
theorem racedByte_candidate (s : State) (i : Nat) (w : Word) (others : List Word) :
    ∃ x ∈ w :: others ++ s.racers, racedByte s i w others = byteOf i x := by
  let candidates := (w :: others ++ s.racers).map (byteOf i)
  have hlt : Config.raceChoice s.draws i % candidates.length < candidates.length :=
    Nat.mod_lt _ (Nat.succ_pos _)
  have hmem : racedByte s i w others ∈ candidates := by
    show candidates.getD (Config.raceChoice s.draws i % candidates.length) (byteOf i w) ∈ candidates
    rw [List.getD_eq_getElem?_getD, List.getElem?_eq_getElem hlt]
    exact List.getElem_mem hlt
  obtain ⟨x, hx, he⟩ := List.mem_map.1 hmem
  exact ⟨x, hx, he.symm⟩

/-- The word that a race shows or leaves has its two bytes from the candidates. -/
theorem racedWord_candidates (s : State) (w : Word) (others : List Word) :
    (∃ x ∈ w :: others ++ s.racers, lowByte (racedWord s w others) = lowByte x) ∧
    (∃ x ∈ w :: others ++ s.racers, highByte (racedWord s w others) = highByte x) := by
  unfold racedWord
  split
  · exact ⟨⟨w, by simp, rfl⟩, ⟨w, by simp, rfl⟩⟩
  · rw [lowByte_wordOfBytes, highByte_wordOfBytes]
    exact ⟨racedByte_candidate s 0 w others, racedByte_candidate s 1 w others⟩

/-- What a race can leave after a read: with no racing writer nothing changes; with one, a word whose bytes come
from the candidates is in the buffer, and the race is counted. -/
theorem settle_cases (hs : 2 ≤ s.buffer.size) (earlier : Word) :
    (s.racers = [] ∧ s.settle earlier = s) ∨
    (s.racers ≠ [] ∧ ∃ m, s.buffer.writeWord (racedWord s earlier []) = some m ∧
      s.settle earlier = { s with buffer := m, draws := s.draws + 1 }) := by
  cases hr : s.racers with
  | nil => exact .inl ⟨rfl, settle_of_no_race s earlier hr⟩
  | cons a rest =>
    obtain ⟨m, hm⟩ := Option.isSome_iff_exists.1 (writeWord_isSome (w := racedWord s earlier []).2 hs)
    refine .inr ⟨by simp, m, hm, ?_⟩
    simp [State.settle, hr, hm, State.countDraw, State.setBuffer]

theorem settle_size (earlier : Word) : (s.settle earlier).buffer.size = s.buffer.size := by
  unfold State.settle
  split
  · rfl
  · split
    · next hm => simpa using writeWord_size hm
    · rfl

theorem settle_wf (h : s.buffer.wf) (earlier : Word) : (s.settle earlier).buffer.wf := by
  unfold State.settle
  split
  · exact h
  · split
    · next hm => simpa using writeWord_wf h hm
    · exact h

/-! ### Storing a word -/

/-- A short buffer refuses the store and nothing is written (43_buffers.md R172). -/
theorem storeWord_short (h : s.buffer.size < 2) :
    storeWord w s = .next (s.finish (.error (bufferTooSmall s.buffer.size))) := by
  simp [storeWord, h, raise]

/-- A buffer of two bytes or more takes the word, as a race leaves it (R170, 20_memory.md R53). -/
theorem storeWord_long (h : 2 ≤ s.buffer.size) :
    ∃ earlier m, s.buffer.readWord = some earlier ∧
      s.buffer.writeWord (racedWord s w [earlier]) = some m ∧
      storeWord w s = .next ((s.setBuffer m).countDraw.finish .written) := by
  obtain ⟨e, he⟩ := Option.isSome_iff_exists.1 (readWord_isSome.2 h)
  obtain ⟨m, hm⟩ := Option.isSome_iff_exists.1 (writeWord_isSome (w := racedWord s w [e]).2 h)
  exact ⟨e, m, he, hm, by simp [storeWord, Nat.not_lt.2 h, he, hm, deliver]⟩

/-- With no racing writer the buffer takes the word itself, and nothing else changes (R170). -/
theorem storeWord_of_no_race (hr : s.racers = []) (h : 2 ≤ s.buffer.size) :
    ∃ m, s.buffer.writeWord w = some m ∧ storeWord w s = .next ((s.setBuffer m).finish .written) := by
  obtain ⟨e, m, -, hm, hw⟩ := storeWord_long (w := w) h
  rw [racedWord_of_no_race hr] at hm
  rw [countDraw_of_no_race _ (show (s.setBuffer m).racers = [] from hr)] at hw
  exact ⟨m, hm, hw⟩

/-- Everything a store can do. -/
theorem storeWord_cases (h : storeWord w s = .next s') :
    (s.buffer.size < 2 ∧ s' = s.finish (.error (bufferTooSmall s.buffer.size))) ∨
    (∃ earlier m, s.buffer.readWord = some earlier ∧
      s.buffer.writeWord (racedWord s w [earlier]) = some m ∧
      s' = (s.setBuffer m).countDraw.finish .written) := by
  by_cases hs : s.buffer.size < 2
  · rw [storeWord_short hs] at h
    injection h with h
    exact .inl ⟨hs, h.symm⟩
  · obtain ⟨e, m, he, hm, hw⟩ := storeWord_long (w := w) (s := s) (by omega)
    rw [hw] at h
    injection h with h
    exact .inr ⟨e, m, he, hm, h.symm⟩

/-! ### Running an instruction -/

/-- Every instruction is run by `perform`, on its own index (10_state.md R30), word (41_encode.md R120) and
text (44_assembly_text.md R180). -/
theorem exec_eq_perform (i : Instr) (s : State) :
    exec i s = perform i i.variantIndex (encode i)
      (toAssemblyText s.config.tokens s.resolver i) s := by
  cases i <;> rfl

theorem exec_idle (h : s.call = none) : exec i s = .next s := by
  rw [exec_eq_perform, perform, h]

theorem exec_construct {o : Operands} {d : Nat} (h : s.call = some (.construct o d)) :
    exec i s = .next (s.finish (.instruction i)) := by
  rw [exec_eq_perform, perform, h]; rfl

theorem exec_encode {j : Instr} (h : s.call = some (.encode j)) :
    exec i s = .next (s.finish (.word (encode i))) := by
  rw [exec_eq_perform, perform, h]; rfl

theorem exec_decode {x : Word} (h : s.call = some (.decode x)) :
    exec i s = .next (s.finish (.decoded i i.variantIndex)) := by
  rw [exec_eq_perform, perform, h]; rfl

theorem exec_encodeToBuffer {j : Instr} (h : s.call = some (.encodeToBuffer j)) :
    exec i s = storeWord (encode i) s := by
  rw [exec_eq_perform, perform, h]

theorem exec_decodeFromBuffer (h : s.call = some .decodeFromBuffer) :
    exec i s = .next (s.finish (.instruction i)) := by
  rw [exec_eq_perform, perform, h]; rfl

theorem exec_toAssemblyText {j : Instr} {r : Resolver} (h : s.call = some (.toAssemblyText j r)) :
    exec i s = .next (s.finish (.text (toAssemblyText s.config.tokens r i))) := by
  rw [exec_eq_perform, perform]
  simp [h, State.resolver, deliver]

/-- Everything running an instruction can do: nothing, end with a result and change nothing else, or end a
store. -/
theorem exec_cases (h : exec i s = .next s') :
    (s.call = none ∧ s' = s) ∨
    (∃ r, s' = s.finish r ∧ (i.wellFormed = true → r.legal = true)) ∨
    (∃ j earlier m, s.call = some (.encodeToBuffer j) ∧ s.buffer.readWord = some earlier ∧
      s.buffer.writeWord (racedWord s (encode i) [earlier]) = some m ∧
      s' = (s.setBuffer m).countDraw.finish .written) := by
  match hc : s.call with
  | none => rw [exec_idle hc] at h; injection h with h; exact .inl ⟨rfl, h.symm⟩
  | some (.construct o d) =>
    rw [exec_construct hc] at h; injection h with h
    exact .inr (.inl ⟨_, h.symm, id⟩)
  | some (.encode j) =>
    rw [exec_encode hc] at h; injection h with h
    exact .inr (.inl ⟨_, h.symm, fun _ => rfl⟩)
  | some (.decode x) =>
    rw [exec_decode hc] at h; injection h with h
    exact .inr (.inl ⟨_, h.symm, fun hi => by simp [Result.legal, hi]⟩)
  | some (.decodeFromBuffer) =>
    rw [exec_decodeFromBuffer hc] at h; injection h with h
    exact .inr (.inl ⟨_, h.symm, id⟩)
  | some (.toAssemblyText j r) =>
    rw [exec_toAssemblyText hc] at h; injection h with h
    exact .inr (.inl ⟨_, h.symm, fun _ => rfl⟩)
  | some (.encodeToBuffer j) =>
    rw [exec_encodeToBuffer hc] at h
    rcases storeWord_cases h with ⟨-, h⟩ | ⟨e, m, he, hm, h⟩
    · exact .inr (.inl ⟨_, h, fun _ => rfl⟩)
    · exact .inr (.inr ⟨j, e, m, rfl, he, hm, h⟩)

/-! ### Coming by the instruction of a call -/

theorem obtain_construct (o : Operands) (d : Nat) (s : State) :
    obtain (.construct o d) s = .ofAnswer (Sys2Proof.construct s.config o d) s := rfl

theorem obtain_decode (x : Word) (s : State) :
    obtain (.decode x) s = .ofAnswer (Sys2Proof.decode s.config x) s := rfl

theorem obtain_decodeFromBuffer_short (h : s.buffer.size < 2) :
    obtain .decodeFromBuffer s = .err (bufferTooSmall s.buffer.size) s := by
  simp [obtain, h]

theorem obtain_decodeFromBuffer_long (h : 2 ≤ s.buffer.size) :
    ∃ x, s.buffer.readWord = some x ∧ obtain .decodeFromBuffer s =
      .ofAnswer (Sys2Proof.decode s.config (racedWord s x [])) (s.countDraw.settle x) := by
  obtain ⟨x, hx⟩ := Option.isSome_iff_exists.1 (readWord_isSome.2 h)
  exact ⟨x, hx, by simp [obtain, Nat.not_lt.2 h, hx]⟩

/-- No call comes by a fault: the length is checked first (43_buffers.md R172). -/
theorem obtain_ne_stop (c : Call) (s : State) (f : Fault) : obtain c s ≠ .stop f := by
  have key : ∀ (a : Except Error Instr) (t : State), Obtained.ofAnswer a t ≠ .stop f := by
    intro a t; cases a <;> simp [Obtained.ofAnswer]
  cases c with
  | construct o d => exact key _ _
  | decode x => exact key _ _
  | decodeFromBuffer =>
    by_cases h : s.buffer.size < 2
    · rw [obtain_decodeFromBuffer_short h]; simp
    · obtain ⟨x, -, hx⟩ := obtain_decodeFromBuffer_long (s := s) (by omega)
      rw [hx]; exact key _ _
  | _ => simp [obtain]

/-! ### A step -/

/-- What a constructor's or `DecodeFromBuffer`'s answer is delivered as. -/
def instrResult : Except Error Instr → Result
  | .ok i => .instruction i
  | .error e => .error e

/-- What `Decode`'s answer is delivered as. -/
def decodeResult : Except Error Instr → Result
  | .ok i => .decoded i i.variantIndex
  | .error e => .error e

@[simp] theorem instrResult_ok (i : Instr) : instrResult (.ok i) = .instruction i := rfl
@[simp] theorem instrResult_error (e : Error) : instrResult (.error e) = .error e := rfl
@[simp] theorem decodeResult_ok (i : Instr) : decodeResult (.ok i) = .decoded i i.variantIndex := rfl
@[simp] theorem decodeResult_error (e : Error) : decodeResult (.error e) = .error e := rfl

theorem step_idle (h : s.call = none) : step s = .next s := by simp [step, h]

theorem step_call {c : Call} (h : s.call = some c) :
    step s = match obtain c s with
      | .instr i s' => exec i s'
      | .err e s' => raise e s'
      | .stop f => .fault f := by
  simp only [step, h] <;> rfl

theorem step_encode {j : Instr} (h : s.call = some (.encode j)) :
    step s = .next (s.finish (.word (encode j))) := by
  rw [step_call h]; exact exec_encode h

theorem step_encodeToBuffer {j : Instr} (h : s.call = some (.encodeToBuffer j)) :
    step s = storeWord (encode j) s := by
  rw [step_call h]; exact exec_encodeToBuffer h

theorem step_toAssemblyText {j : Instr} {r : Resolver} (h : s.call = some (.toAssemblyText j r)) :
    step s = .next (s.finish (.text (toAssemblyText s.config.tokens r j))) := by
  rw [step_call h]; exact exec_toAssemblyText h

theorem step_construct {o : Operands} {d : Nat} (h : s.call = some (.construct o d)) :
    step s = .next (s.finish (instrResult (Sys2Proof.construct s.config o d))) := by
  rw [step_call h, obtain_construct]
  cases Sys2Proof.construct s.config o d with
  | ok i => exact exec_construct h
  | error e => rfl

theorem step_decode {x : Word} (h : s.call = some (.decode x)) :
    step s = .next (s.finish (decodeResult (Sys2Proof.decode s.config x))) := by
  rw [step_call h, obtain_decode]
  cases Sys2Proof.decode s.config x with
  | ok i => exact exec_decode h
  | error e => rfl

theorem step_decodeFromBuffer_short (h : s.call = some .decodeFromBuffer) (hs : s.buffer.size < 2) :
    step s = .next (s.finish (.error (bufferTooSmall s.buffer.size))) := by
  rw [step_call h, obtain_decodeFromBuffer_short hs]; rfl

theorem step_decodeFromBuffer_long (h : s.call = some .decodeFromBuffer) (hs : 2 ≤ s.buffer.size) :
    ∃ x, s.buffer.readWord = some x ∧ step s = .next
      ((s.countDraw.settle x).finish (instrResult (Sys2Proof.decode s.config (racedWord s x [])))) := by
  obtain ⟨x, hx, ho⟩ := obtain_decodeFromBuffer_long hs
  refine ⟨x, hx, ?_⟩
  rw [step_call h, ho]
  cases Sys2Proof.decode s.config (racedWord s x []) with
  | ok i => exact exec_decodeFromBuffer (by simpa using h)
  | error e => rfl

/-- With no racing writer the word of the buffer is decoded and nothing but the ports changes (R171, R49). -/
theorem step_decodeFromBuffer_of_no_race (h : s.call = some .decodeFromBuffer)
    (hr : s.racers = []) (hs : 2 ≤ s.buffer.size) :
    ∃ x, s.buffer.readWord = some x ∧
      step s = .next (s.finish (instrResult (Sys2Proof.decode s.config x))) := by
  obtain ⟨x, hx, hn⟩ := step_decodeFromBuffer_long h hs
  rw [countDraw_of_no_race s hr, settle_of_no_race s x hr, racedWord_of_no_race hr] at hn
  exact ⟨x, hx, hn⟩

/-- Everything a step can do with a call: end it with a result and change nothing else, leave what a
race on the buffer leaves as well, or end a store. -/
theorem step_cases {c : Call} (h : s.call = some c) (hs : step s = .next s') :
    (∃ r, s' = s.finish r) ∨
    (c = .decodeFromBuffer ∧ ∃ x, s.buffer.readWord = some x ∧ s' =
      (s.countDraw.settle x).finish (instrResult (Sys2Proof.decode s.config (racedWord s x [])))) ∨
    (∃ j earlier m, c = .encodeToBuffer j ∧ s.buffer.readWord = some earlier ∧
      s.buffer.writeWord (racedWord s (encode j) [earlier]) = some m ∧
      s' = (s.setBuffer m).countDraw.finish .written) := by
  cases c with
  | construct o d => rw [step_construct h] at hs; injection hs with hs; exact .inl ⟨_, hs.symm⟩
  | encode j => rw [step_encode h] at hs; injection hs with hs; exact .inl ⟨_, hs.symm⟩
  | decode x => rw [step_decode h] at hs; injection hs with hs; exact .inl ⟨_, hs.symm⟩
  | toAssemblyText j r =>
    rw [step_toAssemblyText h] at hs; injection hs with hs; exact .inl ⟨_, hs.symm⟩
  | encodeToBuffer j =>
    rw [step_encodeToBuffer h] at hs
    rcases storeWord_cases hs with ⟨-, hs⟩ | ⟨e, m, he, hm, hs⟩
    · exact .inl ⟨_, hs⟩
    · exact .inr (.inr ⟨j, e, m, rfl, he, hm, hs⟩)
  | decodeFromBuffer =>
    by_cases hb : s.buffer.size < 2
    · rw [step_decodeFromBuffer_short h hb] at hs; injection hs with hs; exact .inl ⟨_, hs.symm⟩
    · obtain ⟨x, hx, hn⟩ := step_decodeFromBuffer_long h (by omega)
      rw [hn] at hs; injection hs with hs; exact .inr (.inl ⟨rfl, x, hx, hs.symm⟩)

/-! ### What an operation does not read: the ports of the one before -/

/-- The state with its output ports at other values. -/
def withResult (s : State) (r : Option Result) : State := { s with result := r }

@[simp] theorem withResult_call (r : Option Result) : (withResult s r).call = s.call := rfl
@[simp] theorem withResult_buffer (r : Option Result) : (withResult s r).buffer = s.buffer := rfl

theorem finish_countDraw_withResult (r : Option Result) (q : Result) :
    (withResult s r).countDraw.finish q = s.countDraw.finish q := by
  cases hr : s.racers <;> simp [State.countDraw, withResult, hr, State.finish]

theorem finish_settle_withResult (r : Option Result) (x : Word) (q : Result) :
    ((withResult s r).countDraw.settle x).finish q = (s.countDraw.settle x).finish q := by
  obtain ⟨config, call, buffer, racers, draws, result⟩ := s
  cases racers with
  | nil => rfl
  | cons a rest =>
    have same : ∀ v, racedWord ⟨config, call, buffer, a :: rest, draws + 1, v⟩ x [] =
        racedWord ⟨config, call, buffer, a :: rest, draws + 1, none⟩ x [] := fun _ => rfl
    simp only [State.settle, State.countDraw, withResult, same]
    cases buffer.writeWord
      (racedWord ⟨config, call, buffer, a :: rest, draws + 1, none⟩ x []) <;> rfl

/-- A step does not read what an earlier operation delivered (10_state.md R34, 20_memory.md R52). -/
theorem step_withResult {c : Call} (h : s.call = some c) (r : Option Result) :
    step (withResult s r) = step s := by
  have h' : (withResult s r).call = some c := h
  cases c with
  | construct o d => rw [step_construct h', step_construct h]; rfl
  | encode j => rw [step_encode h', step_encode h]; rfl
  | decode x => rw [step_decode h', step_decode h]; rfl
  | toAssemblyText j q => rw [step_toAssemblyText h', step_toAssemblyText h]; rfl
  | encodeToBuffer j =>
    rw [step_encodeToBuffer h', step_encodeToBuffer h]
    by_cases hs : s.buffer.size < 2
    · rw [storeWord_short hs, storeWord_short (s := withResult s r) hs]; rfl
    · obtain ⟨e, m, he, hm, hn⟩ := storeWord_long (w := encode j) (Nat.le_of_not_lt hs)
      obtain ⟨e', m', he', hm', hn'⟩ :=
        storeWord_long (s := withResult s r) (w := encode j) (Nat.le_of_not_lt hs)
      cases he.symm.trans he'
      cases (hm.symm.trans hm' : some m = some m')
      rw [hn, hn']
      exact congrArg Host.Outcome.next (finish_countDraw_withResult (s := s.setBuffer m) r .written)
  | decodeFromBuffer =>
    by_cases hs : s.buffer.size < 2
    · rw [step_decodeFromBuffer_short h hs, step_decodeFromBuffer_short h' hs]; rfl
    · obtain ⟨x, hx, hn⟩ := step_decodeFromBuffer_long h (Nat.le_of_not_lt hs)
      obtain ⟨x', hx', hn'⟩ := step_decodeFromBuffer_long h' (Nat.le_of_not_lt hs)
      cases hx.symm.trans hx'
      rw [hn, hn']
      exact congrArg Host.Outcome.next (finish_settle_withResult r x _)

/-! ### Runs -/

@[simp] theorem run_zero (s : State) : core.run 0 s = .next s := rfl

/-- A run of any machine goes on from the state its first step answers. -/
theorem run_succ_of_step (M : Host.Core) {k : Nat} {t t' : M.State} (h : M.step t = .next t') :
    M.run (k + 1) t = M.run k t' := by
  rw [Host.Core.run, h]

theorem run_succ_of_next {k : Nat} (h : step s = .next s') : core.run (k + 1) s = core.run k s' :=
  run_succ_of_step core h

/-- A run that answers a next state has a first step that does. -/
theorem next_of_run_succ (M : Host.Core) {k : Nat} {t t' : M.State} (h : M.run (k + 1) t = .next t') :
    ∃ t₁, M.step t = .next t₁ ∧ M.run k t₁ = .next t' := by
  rw [Host.Core.run] at h
  cases hs : M.step t with
  | next t₁ => rw [hs] at h; exact ⟨t₁, rfl, h⟩
  | fault r => rw [hs] at h; cases h
  | refused r => rw [hs] at h; cases h

end Sys2Proof.Machine
end

