-- ==== Sys2Proof/Laws/PerInstr.lean ====
section
/-! SUPPORT. Statements about every instruction as syntax, one lemma for each constructor of Instr. -/

/-! The encoder writes 0 to every bit that belongs to no field of the variant (41_encode.md R130). -/

namespace Sys2Proof.Laws.UnusedBits

/-- R130, for one instruction. -/
def Statement (i : Instr) : Prop := encode i &&& usedBits i = encode i

theorem jump (condition : JumpCondition) (target : Addr5) : Statement (.jump condition target) := by
  show packJump condition target &&& 0xE0FF#16 = packJump condition target
  revert target; cases condition <;> decide

theorem wait (polarity : Bit1) (source : WaitSource) (index : Index5) :
    Statement (.wait polarity source index) := by
  show packWait polarity source index &&& 0xE0FF#16 = packWait polarity source index
  revert polarity index; cases source <;> decide

theorem shiftIn (source : InSource) (bitCount : BitCount) : Statement (.shiftIn source bitCount) := by
  show packShiftIn source bitCount &&& 0xE0FF#16 = packShiftIn source bitCount
  revert bitCount; cases source <;> decide

theorem shiftOut (destination : OutDestination) (bitCount : BitCount) :
    Statement (.shiftOut destination bitCount) := by
  show packShiftOut destination bitCount &&& 0xE0FF#16 = packShiftOut destination bitCount
  revert bitCount; cases destination <;> decide

theorem push (ifFull block : Bool) : Statement (.push ifFull block) := by
  cases ifFull <;> cases block <;> rfl

theorem pull (ifEmpty block : Bool) : Statement (.pull ifEmpty block) := by
  cases ifEmpty <;> cases block <;> rfl

theorem move (destination : MovDestination) (operation : MovOperation) (source : MovSource) :
    Statement (.move destination operation source) := by
  cases destination <;> cases operation <;> cases source <;> rfl

theorem irq (clear wait : Bool) (index : Index5) : Statement (.irq clear wait index) := by
  show packIrq clear wait index &&& 0xE07F#16 = packIrq clear wait index
  revert index; cases clear <;> cases wait <;> decide

theorem set (destination : SetDestination) (data : Data5) : Statement (.set destination data) := by
  show packSet destination data &&& 0xE0FF#16 = packSet destination data
  revert data; cases destination <;> decide

end Sys2Proof.Laws.UnusedBits
end

