-- ==== Sys2Proof/Laws/Text.lean ====
section
/-! SUPPORT. The laws of strings (00_scope.md R8): a Lean literal of ASCII characters is the string it spells, and
joining strings joins their texts. -/

namespace Sys2Proof

/-- Joining two strings joins their texts. -/
theorem stringOf_append (s t : AsciiString) : stringOf (s ++ t) = stringOf s ++ stringOf t := by
  simp [stringOf]

theorem map_asciiChars {chars : List Char} (h : ∀ c ∈ chars, c.toNat < 128) :
    (asciiChars chars).map (fun c => Char.ofNat c.val) = chars := by
  induction chars with
  | nil => rfl
  | cons c rest ih =>
    have hc : c.toNat < 128 := h c List.mem_cons_self
    rw [asciiChars, dif_pos hc, List.map_cons, Char.ofNat_toNat,
      ih (fun x hx => h x (List.mem_cons_of_mem _ hx))]

/-- A literal whose characters are all ASCII is spelt out whole: none of them is left out. -/
theorem stringOf_ascii {literal : String} (h : ∀ c ∈ literal.toList, c.toNat < 128) :
    stringOf (ascii literal) = literal := by
  simp [stringOf, ascii, map_asciiChars h]

end Sys2Proof
end

