-- ==== Sys2Proof/Tests/Slice0.lean ====
section
/-! SUPPORT. Tests and witnesses. Expected results are the spec's own: the examples of its rules and the vectors of
95_test_vectors.md (E1 to E8, sections 2.1 to 2.5). -/

namespace Sys2Proof.Tests

open Sys2Proof.Machine Sys2Proof.Claims

/-- A state in which a call is on the ports, after reset. -/
def calling (c : Call) : State := { State.reset with call := some c }

/-- The same, with a buffer of the given bytes. -/
def callingOn (c : Call) (bytes : List Byte) : State :=
  { State.reset with call := some c, buffer := Memory.ofBytes bytes }

/-- The same, with `UNUSED_BITS_POLICY = Reject`. -/
def callingReject (c : Call) : State :=
  { State.reset with call := some c, config := { Config.default with unusedBits := .reject } }

/-- The same, while another caller writes 0xE081 into the buffer. -/
def racing (c : Call) (bytes : List Byte) : State := { callingOn c bytes with racers := [0xE081] }

/-- The result that a step delivers. -/
def delivered (s : State) : Option Result :=
  match step s with
  | .next s' => s'.result
  | _ => none

/-- The bytes of the buffer after a step. -/
def bytesAfter (s : State) : List Byte :=
  match step s with
  | .next s' => s'.buffer.bytes
  | _ => []

/-- `UNUSED_BITS_POLICY = Reject`, otherwise the defaults. -/
def rejecting : Config := { Config.default with unusedBits := .reject }

/-- `BITCOUNT_CONVENTION = ZeroAlias32`, otherwise the defaults. -/
def aliasing : Config := { Config.default with bitCount := .zeroAlias32 }

/-! ### WellFormed refuses what is not structurally legal (10_state.md R28) -/

theorem test_wellFormed_shiftIn_zero : (Instr.shiftIn .x 0).wellFormed = false := by decide
theorem test_wellFormed_shiftOut_zero : (Instr.shiftOut .pins 0).wellFormed = false := by decide
theorem test_wellFormed_shift_bounds :
    (Instr.shiftIn .x 1).wellFormed = true ∧ (Instr.shiftOut .pins 32).wellFormed = true := by decide

/-! ### Decoding: a word of each format written out bit by bit from 30_encoding.md R65 to R73 -/

theorem test_decode_jump : decode Config.default 0b0000000010101001#16 = .ok (.jump .xNotEqualY 9) := rfl
theorem test_decode_wait : decode Config.default 0b0010000000100101#16 = .ok (.wait 0 .pin 5) := rfl
theorem test_decode_shiftIn : decode Config.default 0b0100000011010000#16 = .ok (.shiftIn .isr 16) := rfl
theorem test_decode_shiftOut :
    decode Config.default 0b0110000010000010#16 = .ok (.shiftOut .pinDirs 2) := rfl
theorem test_decode_push : decode Config.default 0b1000000001000000#16 = .ok (.push true false) := rfl
theorem test_decode_pull : decode Config.default 0b1000000010000000#16 = .ok (.pull false false) := rfl
theorem test_decode_move :
    decode Config.default 0b1010000010100101#16 = .ok (.move .pc .none .status) := rfl
theorem test_decode_irq : decode Config.default 0b1100000000110000#16 = .ok (.irq false true 16) := rfl
theorem test_decode_set : decode Config.default 0b1110000001011111#16 = .ok (.set .y 31) := rfl

/-- 95 section 2.3: both policies, and the priority of R219. -/
theorem test_decode_policies :
    decode Config.default 0x1F05 = .ok (.jump .always 5) ∧
    decode rejecting 0x1F05 = .error ⟨.unsupported, .delaySideSet, 31⟩ ∧
    decode rejecting 0x3FFF = .error ⟨.unsupported, .delaySideSet, 31⟩ ∧
    decode rejecting 0x801F = .error ⟨.unrecognizedValue, .pushUnused, 31⟩ ∧
    decode rejecting 0x80FF = .error ⟨.unrecognizedValue, .pullUnused, 31⟩ ∧
    decode rejecting 0xC080 = .error ⟨.unrecognizedValue, .irqUnused, 1⟩ ∧
    decode Config.default 0xC0FF = .ok (.irq true true 31) :=
  ⟨rfl, rfl, rfl, rfl, rfl, rfl, rfl⟩

/-- 95 section 2.3: the field that is named. -/
theorem test_decode_unassigned :
    decode Config.default 0x3FFF = .error ⟨.unrecognizedValue, .waitSource, 3⟩ ∧
    decode Config.default 0x40A0 = .error ⟨.unrecognizedValue, .shiftInSource, 5⟩ ∧
    decode Config.default 0xA07C = .error ⟨.unrecognizedValue, .moveDestination, 3⟩ ∧
    decode Config.default 0xA01C = .error ⟨.unrecognizedValue, .moveOperation, 3⟩ ∧
    decode Config.default 0xA004 = .error ⟨.unrecognizedValue, .moveSource, 4⟩ ∧
    decode Config.default 0xFFFF = .error ⟨.unrecognizedValue, .setDestination, 7⟩ :=
  ⟨rfl, rfl, rfl, rfl, rfl, rfl⟩

/-- The host's two questions, on one row. -/
theorem test_table_word : decodeTableWord 16 0x80A0 = some (.pull false true) := by decide
theorem test_withFetchWord :
    delivered (State.reset.withFetchWord 16 0x80A0) = some (.decoded (.pull false true) 5) := by decide

/-! ### Encoding: 95 section 2.2 -/

theorem test_encode_jump : encode (.jump .xPostDec 31) = 0x005F := by decide
theorem test_encode_wait : encode (.wait 1 .irq 19) = 0x20D3 := by decide
theorem test_encode_shiftIn : encode (.shiftIn .x 32) = 0x4020 := by decide
theorem test_encode_shiftOut : encode (.shiftOut .pins 32) = 0x6000 := by decide
theorem test_encode_push : encode (.push true true) = 0x8060 := by decide
theorem test_encode_pull : encode (.pull false false) = 0x8080 := by decide
theorem test_encode_move : encode (.move .osr .bitReverse .isr) = 0xA0F6 := by decide
theorem test_encode_irq : encode (.irq true true 31) = 0xC07F := by decide
theorem test_encode_set : encode (.set .pinDirs 1) = 0xE081 := by decide

/-! ### Construction: 95 section 2.1 -/

theorem test_construct_order :
    construct Config.default (.jump .always 40) 3 = .error ⟨.unsupported, .delaySideSet, 3⟩ ∧
    construct Config.default (.jump .always 32) 0 = .error ⟨.outOfRange, .jumpTarget, 32⟩ ∧
    construct Config.default (.jump .notOsre 31) 0 = .ok (.jump .notOsre 31) ∧
    construct Config.default (.wait 2 .irq 40) 0 = .error ⟨.outOfRange, .waitPolarity, 2⟩ ∧
    construct Config.default (.wait 0 .irq 32) 0 = .error ⟨.outOfRange, .waitIndex, 32⟩ ∧
    construct Config.default (.irq true true 31) 0 = .ok (.irq true true 31) ∧
    construct Config.default (.set .pins 32) 0 = .error ⟨.outOfRange, .setData, 32⟩ :=
  ⟨rfl, rfl, rfl, rfl, rfl, rfl, rfl⟩

theorem test_construct_bitCount :
    construct Config.default (.shiftIn .x 33) 0 = .error ⟨.outOfRange, .shiftInBitCount, 33⟩ ∧
    construct aliasing (.shiftIn .x 33) 0 = .error ⟨.outOfRange, .shiftInBitCount, 33⟩ ∧
    construct Config.default (.shiftIn .isr 32) 0 = .ok (.shiftIn .isr 32) ∧
    construct Config.default (.shiftOut .pc 0) 0 = .error ⟨.outOfRange, .shiftOutBitCount, 0⟩ ∧
    construct aliasing (.shiftOut .pc 0) 0 = .ok (.shiftOut .pc 32) :=
  ⟨rfl, rfl, rfl, rfl, rfl⟩

/-- R112. -/
theorem test_irq_operation :
    construct Config.default (IrqOperation.wait.operands 7) 0 = .ok (.irq false true 7) := rfl

/-- 60_exceptions.md R210. -/
theorem test_error_codes :
    [ErrorKind.outOfRange, .unrecognizedOpcode, .unrecognizedValue, .bufferTooSmall,
      .unsupported].map ErrorKind.code = [1, 2, 3, 4, 5] := by decide

/-! ### Text: 95 sections 1, 2.2 and 2.5 -/

theorem test_text_jump :
    stringOf (toAssemblyText Tokens.default .none (.jump .always 5)) = "jmp 5" ∧
    stringOf (toAssemblyText Tokens.default (.fixed (ascii "bitloop")) (.jump .xPostDec 3)) =
      "jmp X-- bitloop" := by decide
theorem test_text_resolver_map :
    stringOf (toAssemblyText Tokens.default
      (.map (Vector.ofFn (fun k => ascii "loop_" ++ decimal k.val))) (.jump .always 7)) =
      "jmp loop_7" := by decide
theorem test_text_wait :
    stringOf (toAssemblyText Tokens.default .none (.wait 1 .irq 19)) = "wait 1 IRQ 3 rel" ∧
    stringOf (toAssemblyText Tokens.default .none (.wait 1 .gpio 16)) = "wait 1 GPIO 16" := by decide
theorem test_text_shift :
    stringOf (toAssemblyText Tokens.default .none (.shiftIn .x 32)) = "in X, 32" ∧
    stringOf (toAssemblyText Tokens.default (.fixed (ascii "start")) (.shiftOut .pc 5)) =
      "out PC, 5" := by decide
theorem test_text_fifo :
    stringOf (toAssemblyText Tokens.default .none (.push true false)) = "push iffull noblock" ∧
    stringOf (toAssemblyText Tokens.default .none (.pull true true)) = "pull ifempty block" := by decide
theorem test_text_move :
    stringOf (toAssemblyText Tokens.default .none (.move .x .none .y)) = "mov X, Y" ∧
    stringOf (toAssemblyText Tokens.default .none (.move .y .invert .osr)) = "mov Y, ! OSR" := by decide
theorem test_text_irq :
    stringOf (toAssemblyText Tokens.default .none (.irq true true 31)) = "irq clear 15 rel" ∧
    stringOf (toAssemblyText Tokens.default .none (.irq false false 8)) = "irq set 8" := by decide
theorem test_text_set :
    stringOf (toAssemblyText Tokens.default .none (.set .pinDirs 1)) = "set PINDIRS, 1" := by decide

/-! ### Buffers: 95 section 2.4 -/

theorem test_encodeToBuffer :
    bytesAfter (callingOn (.encodeToBuffer (.pull false true)) [0xAA, 0xBB, 0xCC]) =
      [0xA0, 0x80, 0xCC] := by decide
theorem test_encodeToBuffer_short :
    delivered (callingOn (.encodeToBuffer (.jump .always 5)) [0x77]) =
      some (.error ⟨.bufferTooSmall, .buffer, 1⟩) ∧
    bytesAfter (callingOn (.encodeToBuffer (.jump .always 5)) [0x77]) = [0x77] := by decide

/-- Byte order: the word of `[0x80, 0xA0]` is 0xA080. -/
theorem test_decodeFromBuffer :
    delivered (callingOn .decodeFromBuffer [0x80, 0xA0]) =
      some (.instruction (.move .exec .none .pins)) := by decide
theorem test_decodeFromBuffer_errors :
    delivered (callingOn .decodeFromBuffer [0x60, 0x20]) =
      some (.error ⟨.unrecognizedValue, .waitSource, 3⟩) ∧
    delivered (callingOn .decodeFromBuffer [0x05]) =
      some (.error ⟨.bufferTooSmall, .buffer, 1⟩) := by decide

/-- R172: a short buffer is refused whatever is racing. -/
theorem test_race_on_short_buffer :
    delivered (racing .decodeFromBuffer [0x05]) = some (.error ⟨.bufferTooSmall, .buffer, 1⟩) ∧
    bytesAfter (racing (.encodeToBuffer (.jump .always 5)) [0x77]) = [0x77] := by decide

/-- The canonical form: writing the unlisted value takes the entry out. -/
theorem test_write_unlisted :
    (Memory.ofBytes [1, 2, 3]).write 1 0 = some (Memory.ofBytes [1, 0, 3]) := by decide

/-! ### Witnesses: for each statement with hypotheses, a state and operands that meet them, and for each of its
clauses a value at its boundary -/

theorem witness_EncodeJumpPacksItsFields :
    (calling (.encode (.jump .notOsre 31))).call = some (.encode (.jump .notOsre 31)) := rfl
theorem witness_EncodeWaitPacksItsFields :
    (calling (.encode (.wait 1 .irq 31))).call = some (.encode (.wait 1 .irq 31)) := rfl
theorem witness_EncodeShiftInPacksItsFields :
    (calling (.encode (.shiftIn .osr 32))).call = some (.encode (.shiftIn .osr 32)) ∧
    (32 : BitCount) ≠ 0 ∧ (1 : BitCount) ≠ 0 := by decide
theorem witness_EncodeShiftOutPacksItsFields :
    (calling (.encode (.shiftOut .exec 32))).call = some (.encode (.shiftOut .exec 32)) ∧
    (32 : BitCount) ≠ 0 ∧ (1 : BitCount) ≠ 0 := by decide
theorem witness_EncodePushPacksItsFlags :
    (calling (.encode (.push true true))).call = some (.encode (.push true true)) := rfl
theorem witness_EncodePullPacksItsFlagsAndBitSeven :
    (calling (.encode (.pull true true))).call = some (.encode (.pull true true)) := rfl
theorem witness_EncodeMovePacksItsFields :
    (calling (.encode (.move .osr .bitReverse .osr))).call =
      some (.encode (.move .osr .bitReverse .osr)) := rfl
theorem witness_EncodeIrqPacksItsFields :
    (calling (.encode (.irq true true 31))).call = some (.encode (.irq true true 31)) := rfl
theorem witness_EncodeSetPacksItsFields :
    (calling (.encode (.set .pinDirs 31))).call = some (.encode (.set .pinDirs 31)) := rfl

theorem witness_DecodeJumpWord :
    (calling (.decode 0x1FFF)).call = some (.decode 0x1FFF) ∧ slice 0x1FFF 13 3 = 0 := by decide
theorem witness_DecodeWaitWord :
    (calling (.decode 0x2060)).call = some (.decode 0x2060) ∧ slice 0x2060 13 3 = 1 ∧
    slice 0x2060 5 2 = 3 ∧
    (calling (.decode 0x3FDF)).call = some (.decode 0x3FDF) ∧ slice 0x3FDF 13 3 = 1 ∧
    slice 0x3FDF 5 2 ≠ 3 := by decide
theorem witness_DecodeShiftInWord :
    (calling (.decode 0x4080)).call = some (.decode 0x4080) ∧ slice 0x4080 13 3 = 2 ∧
    slice 0x4080 5 3 = 4 ∧ slice 0x40A0 13 3 = 2 ∧ slice 0x40A0 5 3 = 5 ∧
    (calling (.decode 0x4060)).call = some (.decode 0x4060) ∧ slice 0x4060 13 3 = 2 ∧
    slice 0x4060 5 3 = 3 ∧ slice 0x40C0 13 3 = 2 ∧ slice 0x40C0 5 3 = 6 := by decide
theorem witness_DecodeShiftOutWord :
    (calling (.decode 0x7FFF)).call = some (.decode 0x7FFF) ∧ slice 0x7FFF 13 3 = 3 := by decide
theorem witness_DecodePushWord :
    (calling (.decode 0x9F7F)).call = some (.decode 0x9F7F) ∧ slice 0x9F7F 13 3 = 4 ∧
    slice 0x9F7F 7 1 = 0 := by decide
theorem witness_DecodePullWord :
    (calling (.decode 0x8080)).call = some (.decode 0x8080) ∧ slice 0x8080 13 3 = 4 ∧
    slice 0x8080 7 1 = 1 := by decide
theorem witness_DecodeMoveWord :
    (calling (.decode 0xA07C)).call = some (.decode 0xA07C) ∧ slice 0xA07C 13 3 = 5 ∧
    slice 0xA07C 5 3 = 3 ∧
    slice 0xA01C 13 3 = 5 ∧ slice 0xA01C 5 3 ≠ 3 ∧ slice 0xA01C 3 2 = 3 ∧
    slice 0xA014 13 3 = 5 ∧ slice 0xA014 5 3 ≠ 3 ∧ slice 0xA014 3 2 ≠ 3 ∧ slice 0xA014 0 3 = 4 ∧
    slice 0xBFF7 13 3 = 5 ∧ slice 0xBFF7 5 3 ≠ 3 ∧ slice 0xBFF7 3 2 ≠ 3 ∧ slice 0xBFF7 0 3 ≠ 4 := by
  decide
theorem witness_DecodeIrqWord :
    (calling (.decode 0xDFFF)).call = some (.decode 0xDFFF) ∧ slice 0xDFFF 13 3 = 6 := by decide
theorem witness_DecodeSetWord :
    (calling (.decode 0xE060)).call = some (.decode 0xE060) ∧ slice 0xE060 13 3 = 7 ∧
    slice 0xE060 5 3 = 3 ∧ slice 0xFFFF 13 3 = 7 ∧ slice 0xFFFF 5 3 = 7 ∧
    slice 0xE000 13 3 = 7 ∧ slice 0xE000 5 3 = 0 ∧ slice 0xE09F 13 3 = 7 ∧ slice 0xE09F 5 3 = 4 := by
  decide

theorem witness_ConstructJumpChecksItsTarget :
    (calling (.construct (.jump .pin 31) 1)).call = some (.construct (.jump .pin 31) 1) ∧
    (calling (.construct (.jump .pin 32) 0)).call = some (.construct (.jump .pin 32) 0) ∧
    (calling (.construct (.jump .pin 31) 0)).call = some (.construct (.jump .pin 31) 0) :=
  ⟨rfl, rfl, rfl⟩
theorem witness_ConstructWaitChecksPolarityThenIndex :
    (calling (.construct (.wait 1 .irq 31) 1)).call = some (.construct (.wait 1 .irq 31) 1) ∧
    (calling (.construct (.wait 2 .irq 32) 0)).call = some (.construct (.wait 2 .irq 32) 0) ∧
    (calling (.construct (.wait 1 .irq 32) 0)).call = some (.construct (.wait 1 .irq 32) 0) ∧
    (calling (.construct (.wait 1 .irq 31) 0)).call = some (.construct (.wait 1 .irq 31) 0) :=
  ⟨rfl, rfl, rfl, rfl⟩
theorem witness_ConstructShiftChecksItsBitCount :
    (calling (.construct (.shiftIn .x 32) 1)).call = some (.construct (.shiftIn .x 32) 1) ∧
    (calling (.construct (.shiftIn .x 33) 0)).call = some (.construct (.shiftIn .x 33) 0) ∧
    (calling (.construct (.shiftIn .x 0) 0)).config.bitCount = .oneTo32 ∧
    (calling (.construct (.shiftIn .x 1) 0)).call = some (.construct (.shiftIn .x 1) 0) ∧
    ({ calling (.construct (.shiftIn .x 0) 0) with config := aliasing }).config.bitCount =
      .zeroAlias32 ∧
    (calling (.construct (.shiftOut .pc 32) 1)).call = some (.construct (.shiftOut .pc 32) 1) ∧
    (calling (.construct (.shiftOut .pc 33) 0)).call = some (.construct (.shiftOut .pc 33) 0) ∧
    (calling (.construct (.shiftOut .pc 32) 0)).call = some (.construct (.shiftOut .pc 32) 0) :=
  ⟨rfl, rfl, rfl, rfl, rfl, rfl, rfl, rfl⟩
theorem witness_ConstructPushPullMoveAcceptEveryOperand :
    (calling (.construct (.push true true) 0)).call = some (.construct (.push true true) 0) ∧
    (calling (.construct (.pull true true) 31)).call = some (.construct (.pull true true) 31) ∧
    (calling (.construct (.move .x .none .x) 0)).call = some (.construct (.move .x .none .x) 0) :=
  ⟨rfl, rfl, rfl⟩
theorem witness_ConstructIrqChecksItsIndex :
    (calling (.construct (.irq true true 31) 1)).call = some (.construct (.irq true true 31) 1) ∧
    (calling (.construct (.irq true true 32) 0)).call = some (.construct (.irq true true 32) 0) ∧
    (calling (.construct (.irq true true 31) 0)).call = some (.construct (.irq true true 31) 0) :=
  ⟨rfl, rfl, rfl⟩
theorem witness_ConstructSetChecksItsData :
    (calling (.construct (.set .y 31) 1)).call = some (.construct (.set .y 31) 1) ∧
    (calling (.construct (.set .y 32) 0)).call = some (.construct (.set .y 32) 0) ∧
    (calling (.construct (.set .y 31) 0)).call = some (.construct (.set .y 31) 0) :=
  ⟨rfl, rfl, rfl⟩

theorem witness_TextOfJump :
    (calling (.toAssemblyText (.jump .always 7) (.fixed (ascii "start")))).call =
      some (.toAssemblyText (.jump .always 7) (.fixed (ascii "start"))) := rfl
theorem witness_TextOfWait :
    (calling (.toAssemblyText (.wait 1 .irq 16) .none)).call =
      some (.toAssemblyText (.wait 1 .irq 16) .none) := rfl
theorem witness_TextOfShiftIn :
    (calling (.toAssemblyText (.shiftIn .x 32) .none)).call =
      some (.toAssemblyText (.shiftIn .x 32) .none) ∧ (32 : BitCount) ≠ 0 := by decide
theorem witness_TextOfShiftOut :
    (calling (.toAssemblyText (.shiftOut .x 32) .none)).call =
      some (.toAssemblyText (.shiftOut .x 32) .none) ∧ (32 : BitCount) ≠ 0 := by decide
theorem witness_TextOfPushAndPull :
    (calling (.toAssemblyText (.push true true) .none)).call =
      some (.toAssemblyText (.push true true) .none) := rfl
theorem witness_TextOfMove :
    (calling (.toAssemblyText (.move .x .invert .x) .none)).call =
      some (.toAssemblyText (.move .x .invert .x) .none) := rfl
theorem witness_TextOfIrq :
    (calling (.toAssemblyText (.irq true true 31) .none)).call =
      some (.toAssemblyText (.irq true true 31) .none) := rfl
theorem witness_TextOfSet :
    (calling (.toAssemblyText (.set .x 31) .none)).call =
      some (.toAssemblyText (.set .x 31) .none) := rfl

/-- A string whose characters all pass the check is printable. -/
theorem printable_of_all {t : AsciiString}
    (h : (t.all (fun c => decide (32 ≤ c.val ∧ c.val ≤ 126))) = true) : printable t :=
  fun c hc => of_decide_eq_true (List.all_eq_true.1 h c hc)

theorem witness_TextIsOnePrintableLine :
    printableTokens Tokens.default ∧ printableResolver (.fixed (ascii "start")) := by
  refine ⟨⟨?_, ?_, ?_, ?_, ?_, ?_, ?_, ?_⟩, printable_of_all (by decide)⟩ <;> intro c <;> cases c <;>
    exact printable_of_all (by decide)

theorem witness_EncodeToBufferStoresTheWord :
    (callingOn (.encodeToBuffer (.set .pinDirs 1)) [0, 0]).call =
      some (.encodeToBuffer (.set .pinDirs 1)) ∧
    (callingOn (.encodeToBuffer (.set .pinDirs 1)) [0, 0]).buffer.wf ∧
    2 ≤ (callingOn (.encodeToBuffer (.set .pinDirs 1)) [0, 0]).buffer.size ∧
    (callingOn (.encodeToBuffer (.set .pinDirs 1)) [0, 0]).racers = [] ∧
    (callingOn (.encodeToBuffer (.set .pinDirs 1)) [7]).buffer.wf ∧
    (callingOn (.encodeToBuffer (.set .pinDirs 1)) [7]).buffer.size < 2 := by decide
theorem witness_DecodeFromBufferReadsTheWord :
    (callingOn .decodeFromBuffer [0xA0, 0x80]).call = some .decodeFromBuffer ∧
    (callingOn .decodeFromBuffer [0xA0, 0x80]).racers = [] ∧
    2 ≤ (callingOn .decodeFromBuffer [0xA0, 0x80]).buffer.size ∧
    decode Config.default 0x80A0 = .ok (.pull false true) ∧
    decode Config.default 0x2060 = .error ⟨.unrecognizedValue, .waitSource, 3⟩ ∧
    (racing .decodeFromBuffer [0x05]).call = some .decodeFromBuffer ∧
    (racing .decodeFromBuffer [0x05]).buffer.size < 2 :=
  ⟨rfl, rfl, by decide, rfl, rfl, rfl, by decide⟩
theorem witness_BufferRoundTrip :
    (callingOn (.encodeToBuffer (.shiftOut .y 32)) [1, 2, 3]).call =
      some (.encodeToBuffer (.shiftOut .y 32)) ∧
    (Instr.shiftOut .y 32).wellFormed = true ∧
    (callingOn (.encodeToBuffer (.shiftOut .y 32)) [1, 2, 3]).buffer.wf ∧
    2 ≤ (callingOn (.encodeToBuffer (.shiftOut .y 32)) [1, 2, 3]).buffer.size ∧
    (callingOn (.encodeToBuffer (.shiftOut .y 32)) [1, 2, 3]).racers = [] := by decide
theorem witness_RacesShowAndLeaveCandidates :
    (racing .decodeFromBuffer [0xA0, 0x80]).call = some .decodeFromBuffer ∧
    (racing (.encodeToBuffer (.set .pinDirs 1)) [0xA0, 0x80]).call =
      some (.encodeToBuffer (.set .pinDirs 1)) ∧
    (racing .decodeFromBuffer [0xA0, 0x80]).buffer.wf ∧
    (racing .decodeFromBuffer [0xA0, 0x80]).buffer.read 0 = some 0xA0 ∧
    (racing .decodeFromBuffer [0xA0, 0x80]).buffer.read 1 = some 0x80 ∧
    (racing .decodeFromBuffer [0xA0, 0x80]).racers ≠ [] := by decide

theorem witness_DecodeOfEncodeGivesTheInstruction :
    (Instr.shiftIn .x 32).wellFormed = true ∧
    construct Config.default (.shiftIn .x 32) 0 = .ok (.shiftIn .x 32) := ⟨rfl, rfl⟩
theorem witness_EncodeOfDecodeClearsTheUnusedBits :
    decode Config.default 0x80FF = .ok (.pull true true) ∧ Config.default.unusedBits = .ignore ∧
    (0x9FFF#16 &&& usedBits (.pull true true)) = encode (.pull true true) ∧
    decode rejecting 0x80E0 = .ok (.pull true true) ∧ rejecting.unusedBits = .reject :=
  ⟨rfl, rfl, rfl, rfl, rfl⟩
theorem witness_EncodeIsInjective :
    (Instr.pull true true).wellFormed = true ∧ encode (.pull true true) = encode (.pull true true) :=
  ⟨rfl, rfl⟩
theorem witness_UnusedBitsPolicyOfTheDecoder :
    Config.default.unusedBits = .ignore ∧ 0x1F05#16 &&& 0xE0FF#16 = 0x0005#16 &&& 0xE0FF#16 ∧
    slice 0x8000 13 3 = 4 ∧ 0x9F1F#16 &&& 0xE0E0#16 = 0x8000#16 &&& 0xE0E0#16 ∧
    slice 0xC000 13 3 = 6 ∧ 0xDF80#16 &&& 0xE07F#16 = 0xC000#16 &&& 0xE07F#16 ∧
    rejecting.unusedBits = .reject ∧ slice 0x1F05 8 5 ≠ 0 ∧
    (slice 0x8001 8 5 = 0 ∧ slice 0x8001 13 3 = 4 ∧ slice 0x8001 7 1 = 0 ∧ slice 0x8001 0 5 ≠ 0) ∧
    (slice 0x809F 8 5 = 0 ∧ slice 0x809F 13 3 = 4 ∧ slice 0x809F 7 1 = 1 ∧ slice 0x809F 0 5 ≠ 0) ∧
    (slice 0xC080 8 5 = 0 ∧ slice 0xC080 13 3 = 6 ∧ slice 0xC080 7 1 ≠ 0) := by decide
theorem witness_WhichWordsDecode :
    Config.default.unusedBits = .ignore ∧ slice 0xA07C 8 5 = 0 ∧
    unassigned 0xA07C = some (.moveDestination, 3) ∧
    rejecting.unusedBits = .reject ∧ slice 0x3FFF 8 5 ≠ 0 ∧
    decode rejecting 0x80E0 = .ok (.pull true true) ∧ unassigned 0x80E0 = none ∧
    unassigned 0xC080 = none ∧ decode rejecting 0xC080 = .error ⟨.unrecognizedValue, .irqUnused, 1⟩ :=
  ⟨rfl, by decide, by decide, rfl, by decide, rfl, by decide, by decide, rfl⟩
theorem witness_CountsOfDecodableWords :
    Config.default.unusedBits = .ignore ∧ rejecting.unusedBits = .reject := ⟨rfl, rfl⟩
theorem witness_OneOpcodeRowSelectsEachWord :
    decode Config.default 0x8080 = .ok (.pull false false) := rfl
theorem witness_DecoderWiresAgreeWithDecode :
    (calling (.decode 0x8080)).call = some (.decode 0x8080) ∧
    decoderPorts Config.default 0x8080 = ⟨true, some 5, some (.pull false false), none⟩ ∧
    decoderPorts Config.default 0x2060 =
      ⟨false, none, none, some ⟨.unrecognizedValue, .waitSource, 3⟩⟩ := ⟨rfl, rfl, rfl⟩
theorem witness_NoWordFailsForItsTag :
    decode Config.default 0x2060 = .error ⟨.unrecognizedValue, .waitSource, 3⟩ ∧ 8 ≤ 8 :=
  ⟨rfl, Nat.le_refl 8⟩

/-- A state whose ports hold legal instructions, and which meets the invariant. -/
theorem witness_EveryStepKeepsTheInvariant :
    (callingOn (.encodeToBuffer (.set .pinDirs 1)) [1, 2]).inv ∧
    bytesAfter (callingOn (.encodeToBuffer (.set .pinDirs 1)) [1, 2]) = [0x81, 0xE0] := by
  refine ⟨⟨by decide, ?_, ?_⟩, by decide⟩
  · intro c hc
    injection hc with hc
    subst hc
    rfl
  · intro r hr
    cases hr

theorem witness_EveryOperationEndsWithAResult :
    (calling .decodeFromBuffer).call = some .decodeFromBuffer := rfl
theorem witness_ErrorsOfEachOperation :
    (calling (.decode 0x2060)).call = some (.decode 0x2060) ∧
    delivered (calling (.decode 0x2060)) = some (.error ⟨.unrecognizedValue, .waitSource, 3⟩) ∧
    delivered (callingReject (.decode 0x1F05)) = some (.error ⟨.unsupported, .delaySideSet, 31⟩) := by
  decide
theorem witness_AFailingOperationChangesNothingAndRepeats :
    (callingOn .decodeFromBuffer [0x60, 0x20]).call = some .decodeFromBuffer ∧
    (callingOn .decodeFromBuffer [0x60, 0x20]).racers = [] ∧
    delivered (callingOn .decodeFromBuffer [0x60, 0x20]) =
      some (.error ⟨.unrecognizedValue, .waitSource, 3⟩) ∧
    (racing .decodeFromBuffer [0x60]).buffer.size < 2 ∧
    delivered (racing .decodeFromBuffer [0x60]) = some (.error ⟨.bufferTooSmall, .buffer, 1⟩) ∧
    delivered (racing (.decode 0x2060) []) = some (.error ⟨.unrecognizedValue, .waitSource, 3⟩) := by
  decide
theorem witness_RunsKeepTheParametersAndTheBufferSize :
    ∃ s', core.run 2 (callingOn (.encodeToBuffer (.set .pinDirs 1)) [1, 2]) = .next s' := ⟨_, rfl⟩
theorem witness_ResultsDoNotDependOnEarlierOperations :
    (callingOn .decodeFromBuffer [0xA0, 0x80]).call = some .decodeFromBuffer ∧
    ({ callingOn .decodeFromBuffer [0xA0, 0x80] with result := some .written }).call =
      some .decodeFromBuffer ∧
    (callingOn .decodeFromBuffer [0xA0, 0x80]).racers = [] ∧
    touchesBuffer .decodeFromBuffer = true ∧ (racing .decodeFromBuffer [0x05]).buffer.size < 2 ∧
    delivered (callingOn .decodeFromBuffer [0xA0, 0x80]) =
      some (.instruction (.pull false true)) := by decide
theorem witness_FrameOfEveryInstruction :
    (∃ s', exec (.set .pinDirs 1) (callingOn (.encodeToBuffer (.set .pinDirs 1)) [1, 2, 3]) =
      .next s') ∧
    (∃ s', exec (.set .pinDirs 1) (racing (.encodeToBuffer (.set .pinDirs 1)) [1, 2, 3]) =
      .next s') ∧
    (∃ s', exec (.set .pinDirs 1) (calling (.decode 0xE081)) = .next s') ∧
    (∃ s', exec (.set .pinDirs 1) State.reset = .next s') :=
  ⟨⟨_, rfl⟩, ⟨_, rfl⟩, ⟨_, rfl⟩, ⟨_, rfl⟩⟩
theorem witness_AStepRunsTheInstructionOfItsCall :
    State.reset.call = none ∧
    (calling (.decode 0x80A0)).call = some (.decode 0x80A0) ∧
    decode Config.default (BitVec.ofNat 16 (0x80A0 % 2 ^ 16)) = .ok (.pull false true) ∧
    (callingOn .decodeFromBuffer [0xA0, 0x80]).buffer.read 0 = some 0xA0 ∧
    (callingOn .decodeFromBuffer [0xA0, 0x80]).buffer.read 1 = some 0x80 ∧
    decode Config.default (wordOfBytes 0xA0 0x80) = .ok (.pull false true) ∧
    construct Config.default (.shiftIn .x 32) 0 = .ok (.shiftIn .x 32) ∧
    (calling (.encode (.pull false true))).call = some (.encode (.pull false true)) :=
  ⟨rfl, rfl, rfl, rfl, rfl, rfl, rfl, rfl⟩

end Sys2Proof.Tests
end

section
/-! PROOFS. 20_memory.md R52: what an operation delivers and leaves in the buffer, as functions of its own inputs. -/

namespace Sys2Proof.Machine

open Sys2Proof.Claims

variable {s s' : State} {c : Call}

/-- The result of a call from its own inputs: the parameters, the operands, and the buffer as its bytes stand. -/
def ownResult (config : Config) (buffer : Memory) : Call → Result
  | .construct o d => instrResult (Sys2Proof.construct config o d)
  | .encode i => .word (encode i)
  | .decode w => decodeResult (Sys2Proof.decode config w)
  | .encodeToBuffer _ =>
    if buffer.size < 2 then .error (bufferTooSmall buffer.size) else .written
  | .decodeFromBuffer =>
    match buffer.readWord with
    | some w => instrResult (Sys2Proof.decode config w)
    | none => .error (bufferTooSmall buffer.size)
  | .toAssemblyText i r => .text (toAssemblyText config.tokens r i)

/-- The buffer a call leaves, from its own inputs: only a store that fits writes to it (R48, R49). -/
def ownBuffer (buffer : Memory) : Call → Memory
  | .encodeToBuffer i => (buffer.writeWord (encode i)).getD buffer
  | _ => buffer

/-- An operation that does not touch the buffer has its result whatever the buffer holds. -/
theorem ownResult_of_not_touchesBuffer (h : touchesBuffer c ≠ true) (config : Config) (m m' : Memory) :
    ownResult config m c = ownResult config m' c := by
  cases c with
  | encodeToBuffer _ | decodeFromBuffer => exact absurd rfl h
  | _ => rfl

theorem readWord_of_short {m : Memory} (h : m.size < 2) : m.readWord = none := by
  rw [← Option.not_isSome_iff_eq_none, readWord_isSome]; omega

theorem writeWord_of_short {m : Memory} (h : m.size < 2) (w : Word) : m.writeWord w = none := by
  rw [← Option.not_isSome_iff_eq_none, writeWord_isSome]; omega

/-- A step delivers the result of its own inputs; a race matters only to a read of the buffer (R53). -/
theorem step_result (hc : s.call = some c)
    (hr : c = .decodeFromBuffer → s.racers = [] ∨ s.buffer.size < 2) (hs : step s = .next s') :
    s'.result = some (ownResult s.config s.buffer c) := by
  cases c with
  | construct o d => rw [step_construct hc] at hs; cases hs; rfl
  | encode i => rw [step_encode hc] at hs; cases hs; rfl
  | decode w => rw [step_decode hc] at hs; cases hs; rfl
  | toAssemblyText i r => rw [step_toAssemblyText hc] at hs; cases hs; rfl
  | encodeToBuffer i =>
    rw [step_encodeToBuffer hc] at hs
    by_cases hb : s.buffer.size < 2
    · rw [storeWord_short hb] at hs; cases hs
      simp [ownResult, hb]
    · obtain ⟨_, _, _, _, hn⟩ := storeWord_long (w := encode i) (Nat.le_of_not_lt hb)
      rw [hn] at hs; cases hs
      simp [ownResult, hb]
  | decodeFromBuffer =>
    by_cases hb : s.buffer.size < 2
    · rw [step_decodeFromBuffer_short hc hb] at hs; cases hs
      simp [ownResult, readWord_of_short hb]
    · obtain ⟨x, hx, hn⟩ :=
        step_decodeFromBuffer_of_no_race hc ((hr rfl).resolve_right hb) (Nat.le_of_not_lt hb)
      rw [hn] at hs; cases hs
      simp [ownResult, hx]

/-- With no racing writer every operation but a store leaves the buffer as it was (R49). -/
theorem step_keeps_buffer_of_no_race (hc : s.call = some c) (hr : s.racers = [])
    (hn : ∀ i, c ≠ .encodeToBuffer i) (hs : step s = .next s') : s'.buffer = s.buffer := by
  rcases step_cases hc hs with ⟨r, rfl⟩ | ⟨-, x, -, rfl⟩ | ⟨i, -, -, hi, -⟩
  · rfl
  · simp [countDraw_of_no_race s hr, settle_of_no_race s x hr]
  · exact absurd hi (hn i)

/-- With no racing writer a step leaves the buffer of its own inputs. -/
theorem step_buffer_of_no_race (hc : s.call = some c) (hr : s.racers = []) (hs : step s = .next s') :
    s'.buffer = ownBuffer s.buffer c := by
  cases c with
  | encodeToBuffer i =>
    rw [step_encodeToBuffer hc] at hs
    by_cases hb : s.buffer.size < 2
    · rw [storeWord_short hb] at hs; cases hs
      simp [ownBuffer, writeWord_of_short hb]
    · obtain ⟨m, hm, hn⟩ := storeWord_of_no_race (w := encode i) hr (Nat.le_of_not_lt hb)
      rw [hn] at hs; cases hs
      simp [ownBuffer, hm]
  | _ => exact step_keeps_buffer_of_no_race hc hr (by simp) hs

/-- Settles O56: each of the two results and buffers is the one of the operation's own inputs, which agree. -/
theorem resultsDoNotDependOnEarlierOperations :
    Obligations.ResultsDoNotDependOnEarlierOperations := by
  intro s t s' t' c hs ht hcfg hbuf hs' ht'
  refine ⟨fun hrace => ?_, fun htouch hsr htr => ?_⟩
  · have hsr : c = .decodeFromBuffer → s.racers = [] ∨ s.buffer.size < 2 :=
      fun h => (hrace h).imp_left And.left
    have htr : c = .decodeFromBuffer → t.racers = [] ∨ t.buffer.size < 2 := by
      intro h
      rw [← hbuf (by rw [h]; rfl)]
      exact (hrace h).imp_left And.right
    rw [step_result hs hsr hs', step_result ht htr ht', hcfg]
    by_cases htouch : touchesBuffer c = true
    · rw [hbuf htouch]
    · rw [ownResult_of_not_touchesBuffer htouch t.config s.buffer t.buffer]
  · rw [step_buffer_of_no_race hs hsr hs', step_buffer_of_no_race ht htr ht', hbuf htouch]

end Sys2Proof.Machine
end

section
/-! PROOFS. 30_encoding.md R86 and 42_decode.md R143: the kinds of error that a decode can have. -/

namespace Sys2Proof

/-- The only kind of error that `x` can have is `UnrecognizedValue`. -/
def FailsOnlyForValue {α : Type} (x : Except Error α) : Prop :=
  ∀ e : Error, x = .error e → e.kind = .unrecognizedValue

section

variable {α β : Type}

theorem failsOnlyForValue_ok (a : α) : FailsOnlyForValue (.ok a) := fun _ h => nomatch h

theorem failsOnlyForValue_unrecognizedValue (field : Field) (v : Nat) :
    FailsOnlyForValue (unrecognizedValue field v : Except Error α) := by
  rintro _ ⟨⟩; rfl

theorem failsOnlyForValue_lookup {n : Nat} {all : List α} {pattern : α → BitVec n} {field : Field}
    {p : BitVec n} : FailsOnlyForValue (lookup all pattern field p) := fun e h => by
  rw [(lookup_eq_error h).1]

theorem FailsOnlyForValue.bind {x : Except Error α} {k : α → Except Error β}
    (hx : FailsOnlyForValue x) (hk : ∀ a, FailsOnlyForValue (k a)) : FailsOnlyForValue (x >>= k) := by
  cases x with
  | ok a => exact hk a
  | error e => rintro _ ⟨⟩; exact hx e rfl

theorem FailsOnlyForValue.map {x : Except Error α} (hx : FailsOnlyForValue x) (f : α → β) :
    FailsOnlyForValue (x.map f) := by
  cases x with
  | ok a => exact failsOnlyForValue_ok (f a)
  | error e => rintro _ ⟨⟩; exact hx e rfl

theorem FailsOnlyForValue.afterUnusedBits {k : Except Error α} (hk : FailsOnlyForValue k)
    (config : Config) (field : Field) (v : Nat) :
    FailsOnlyForValue (afterUnusedBits config field v k) := by
  unfold Sys2Proof.afterUnusedBits
  split
  · exact hk
  · split
    · exact failsOnlyForValue_unrecognizedValue field v
    · exact hk

end

/-- Each of the eight assigned tags has an unpacker, and it fails only for a value of a field (R144 to R152). -/
theorem dispatch_failsOnlyForValue (config : Config) (w : Word) :
    ∀ tag : Nat, tag < 8 → FailsOnlyForValue (dispatch config tag w)
  | 0, _ => show FailsOnlyForValue (unpackJump w) by
    rw [unpackJump_eq]; exact failsOnlyForValue_lookup.map _
  | 1, _ => show FailsOnlyForValue (unpackWait w) by
    rw [unpackWait_eq]; exact failsOnlyForValue_lookup.map _
  | 2, _ => show FailsOnlyForValue (unpackShiftIn config w) by
    rw [unpackShiftIn_eq]; exact failsOnlyForValue_lookup.map _
  | 3, _ => show FailsOnlyForValue (unpackShiftOut config w) by
    rw [unpackShiftOut_eq]; exact failsOnlyForValue_lookup.map _
  | 4, _ => show FailsOnlyForValue (if w.getLsbD 7 then unpackPull config w else unpackPush config w) by
    rw [unpackPull_eq, unpackPush_eq]
    split
    · exact (failsOnlyForValue_ok _).afterUnusedBits config .pullUnused _
    · exact (failsOnlyForValue_ok _).afterUnusedBits config .pushUnused _
  | 5, _ => show FailsOnlyForValue (unpackMove w) by
    rw [unpackMove_eq]
    refine failsOnlyForValue_lookup.bind fun d => ?_
    refine failsOnlyForValue_lookup.bind fun o => ?_
    exact failsOnlyForValue_lookup.bind fun s => failsOnlyForValue_ok (Instr.move d o s)
  | 6, _ => show FailsOnlyForValue (unpackIrq config w) by
    rw [unpackIrq_eq]; exact (failsOnlyForValue_ok _).afterUnusedBits config .irqUnused _
  | 7, _ => show FailsOnlyForValue (unpackSet w) by
    rw [unpackSet_eq]; exact failsOnlyForValue_lookup.map _
  | _ + 8, h => absurd h (by omega)

/-- The defensive arm (R143) answers for every tag outside the eight. -/
theorem dispatch_of_unassigned_tag (config : Config) (w : Word) {tag : Nat} (h : 8 ≤ tag) :
    dispatch config tag w = .error ⟨.unrecognizedOpcode, .tag, tag⟩ := by
  obtain ⟨n, rfl⟩ := Nat.exists_eq_add_of_le' h
  rfl

/-- A decode fails for the value of a field, or for non-zero bits 12:8 (R153, R154): the tag of a word has three
bits, so the dispatch never comes to its defensive arm. -/
theorem decode_error_kind {config : Config} {w : Word} {e : Error} (h : decode config w = .error e) :
    e.kind = .unrecognizedValue ∨ e.kind = .unsupported := by
  have htag : FailsOnlyForValue (dispatch config (tagOf w).toNat w) :=
    dispatch_failsOnlyForValue config w _ (tagOf w).isLt
  cases hpolicy : config.unusedBits with
  | ignore =>
    rw [decode_of_ignore hpolicy] at h
    exact .inl (htag e h)
  | reject =>
    by_cases hside : delaySideSetOf w = 0
    · rw [decode_of_no_sideSet config hside] at h
      exact .inl (htag e h)
    · rw [decode_of_sideSet hpolicy hside] at h
      cases h
      exact .inr rfl

/-- Settles O49: a failing decode has one of two other kinds, and the defensive arm names the tag. -/
theorem noWordFailsForItsTag : Obligations.NoWordFailsForItsTag := by
  refine ⟨fun config w e h => ?_, fun config w _ h => dispatch_of_unassigned_tag config w h⟩
  rcases decode_error_kind h with hk | hk
  · simp [hk]
  · simp [hk]

end Sys2Proof
end

section
/-! PROOFS. 40_construction.md R101 to R112: what a step with a constructor in progress ends with. -/

namespace Sys2Proof.Machine

open Sys2Proof.Claims

variable {s : State} {o : Operands} {d n : Nat} {field : Field}

/-- A non-zero side-set request is refused before anything else is checked (R111). -/
theorem afterDelaySideSet_of_ne_zero {α : Type} (hd : d ≠ 0) (k : Except Error α) :
    afterDelaySideSet d k = .error ⟨.unsupported, .delaySideSet, d⟩ := if_pos hd

@[simp] theorem instrResult_outOfRange (field : Field) (n : Nat) :
    instrResult (outOfRange field n) = outside field n := rfl

/-- A construction delivers the answer of the checks that follow the one of `delaySideSet`, or its refusal. -/
theorem step_construct_afterDelaySideSet {k : Except Error Instr}
    (hc : s.call = some (.construct o d))
    (ho : Sys2Proof.construct s.config o d = afterDelaySideSet d k) :
    step s = .next (ended s (if d = 0 then instrResult k else sideSet d)) := by
  rw [step_construct hc, ho]
  by_cases hd : d = 0
  · rw [if_pos hd, hd, afterDelaySideSet_zero]; rfl
  · rw [if_neg hd, afterDelaySideSet_of_ne_zero hd]; rfl

/-- The step of a constructor whose one numeric operand `n` has a 5-bit field (R101, R108, R109). -/
theorem step_construct_fiveBitField {make : BitVec 5 → Instr} (hc : s.call = some (.construct o d))
    (ho : Sys2Proof.construct s.config o d =
      afterDelaySideSet d (if n > 31 then outOfRange field n else .ok (make (BitVec.ofNat 5 n)))) :
    (d ≠ 0 → step s = .next (ended s (sideSet d))) ∧
    (d = 0 → 31 < n → step s = .next (ended s (outside field n))) ∧
    (d = 0 → n ≤ 31 → ∃ k : BitVec 5, k.toNat = n ∧
      step s = .next (ended s (.instruction (make k)))) := by
  rw [step_construct_afterDelaySideSet hc ho]
  refine ⟨fun hd => ?_, fun hd hn => ?_, fun hd hn => ⟨BitVec.ofNat 5 n, ?_, ?_⟩⟩
  · rw [if_neg hd]
  · rw [if_pos hd, if_pos hn, instrResult_outOfRange]
  · exact Nat.mod_eq_of_lt (by omega)
  · rw [if_pos hd, if_neg (Nat.not_lt.2 hn), instrResult_ok]

/-- Settles O19: the target is the one numeric operand. -/
theorem constructJumpChecksItsTarget : Obligations.ConstructJumpChecksItsTarget :=
  fun _ _ _ _ hc => step_construct_fiveBitField hc rfl

/-- Settles O23: the raw index is the one numeric operand (decision D9). -/
theorem constructIrqChecksItsIndex : Obligations.ConstructIrqChecksItsIndex :=
  fun _ _ _ _ _ hc => step_construct_fiveBitField hc rfl

/-- Settles O25: the data is the one numeric operand. -/
theorem constructSetChecksItsData : Obligations.ConstructSetChecksItsData :=
  fun _ _ _ _ hc => step_construct_fiveBitField hc rfl

/-- Settles O20: after the side-set check, the branches of `constructWait` in its order. -/
theorem constructWaitChecksPolarityThenIndex :
    Obligations.ConstructWaitChecksPolarityThenIndex := by
  intro p u n d s hc
  rw [step_construct_afterDelaySideSet hc rfl]
  refine ⟨fun hd => ?_, fun hd hp => ?_, fun hd hp hn => ?_,
    fun hd hp hn => ⟨BitVec.ofNat 1 p, BitVec.ofNat 5 n, ?_, ?_, ?_⟩⟩
  · rw [if_neg hd]
  · rw [if_pos hd, if_pos hp, instrResult_outOfRange]
  · rw [if_pos hd, if_neg (Nat.not_lt.2 hp), if_pos hn, instrResult_outOfRange]
  · exact Nat.mod_eq_of_lt (by omega)
  · exact Nat.mod_eq_of_lt (by omega)
  · rw [if_pos hd, if_neg (Nat.not_lt.2 hp), if_neg (Nat.not_lt.2 hn), instrResult_ok]

/-- A count above 32 is refused under both conventions, and 0 under `OneTo32` (R103). -/
theorem storedBitCount_of_outside {c : BitCountConvention}
    (h : 32 < n ∨ (n = 0 ∧ c = .oneTo32)) : storedBitCount c field n = outOfRange field n := by
  rcases h with hn | ⟨hn, rfl⟩
  · cases c with
    | oneTo32 => exact if_pos (.inr hn)
    | zeroAlias32 => exact if_pos hn
  · exact if_pos (.inl hn)

/-- Every other count is accepted, and 0 is stored as 32 (R103). -/
theorem storedBitCount_of_inside {c : BitCountConvention} (hn : n ≤ 32)
    (h : n ≠ 0 ∨ c = .zeroAlias32) :
    ∃ k : BitCount, storedBitCount c field n = .ok k ∧ k.val = if n = 0 then 32 else n := by
  have hok : ∃ k, storedBitCount c field n = .ok k := by
    cases c with
    | oneTo32 => exact ⟨_, if_neg (not_or.2 ⟨h.resolve_right (by decide), Nat.not_lt.2 hn⟩)⟩
    | zeroAlias32 => exact ⟨_, if_neg (Nat.not_lt.2 hn)⟩
  obtain ⟨k, hk⟩ := hok
  obtain ⟨-, -, hval⟩ := storedBitCount_eq_ok hk
  exact ⟨k, hk, hval⟩

/-- The step of a constructor whose one numeric operand is a bit count (R103, R104). -/
theorem step_construct_bitCount {make : BitCount → Instr} (hc : s.call = some (.construct o d))
    (ho : Sys2Proof.construct s.config o d =
      afterDelaySideSet d ((storedBitCount s.config.bitCount field n).map make)) :
    (d ≠ 0 → step s = .next (ended s (sideSet d))) ∧
    (d = 0 → 32 < n ∨ (n = 0 ∧ s.config.bitCount = .oneTo32) →
      step s = .next (ended s (outside field n))) ∧
    (d = 0 → n ≤ 32 → n ≠ 0 ∨ s.config.bitCount = .zeroAlias32 →
      ∃ k : BitCount, k.val = (if n = 0 then 32 else n) ∧
        step s = .next (ended s (.instruction (make k)))) := by
  rw [step_construct_afterDelaySideSet hc ho]
  refine ⟨fun hd => ?_, fun hd h => ?_, fun hd hn h => ?_⟩
  · rw [if_neg hd]
  · rw [if_pos hd, storedBitCount_of_outside h]; rfl
  · obtain ⟨k, hk, hval⟩ := storedBitCount_of_inside (field := field) hn h
    refine ⟨k, hval, ?_⟩
    rw [if_pos hd, hk]; rfl

/-- Settles O21: both constructors check the bit count by the convention and nothing else. -/
theorem constructShiftChecksItsBitCount : Obligations.ConstructShiftChecksItsBitCount :=
  ⟨fun _ _ _ _ hc => step_construct_bitCount hc rfl,
    fun _ _ _ _ hc => step_construct_bitCount hc rfl⟩

/-- Settles O22: nothing is checked after the side-set check. -/
theorem constructPushPullMoveAcceptEveryOperand :
    Obligations.ConstructPushPullMoveAcceptEveryOperand :=
  fun _ _ _ _ _ _ _ => ⟨fun hc => step_construct_afterDelaySideSet hc rfl,
    fun hc => step_construct_afterDelaySideSet hc rfl,
    fun hc => step_construct_afterDelaySideSet hc rfl⟩

/-- No Irq operation has both flags (R112). -/
theorem irqOperation_flags_not_both (op : IrqOperation) :
    ¬ (op.clearFlag = true ∧ op.waitFlag = true) := by
  cases op <;> decide

/-- Settles O24: the flags of each operation by evaluation; no operation has both. -/
theorem irqOperationGivesItsFlags : Obligations.IrqOperationGivesItsFlags := by
  refine fun n => ⟨rfl, rfl, rfl, fun op h => ?_⟩
  injection h with hclear hwait
  exact irqOperation_flags_not_both op ⟨hclear, hwait⟩

end Sys2Proof.Machine
end

section
/-! PROOFS. 41_encode.md R121 to R129: the word that a step with an encoder in progress delivers. -/

namespace Sys2Proof

open Sys2Proof.Claims

/-! ### The numbers of the spec's tables are the patterns of the model (30_encoding.md R74 to R82) -/

@[simp] theorem toNat_pattern_jumpCondition (c : JumpCondition) :
    c.pattern.toNat = conditionNumber c := by cases c <;> rfl
@[simp] theorem toNat_pattern_waitSource (u : WaitSource) :
    u.pattern.toNat = waitSourceNumber u := by cases u <;> rfl
@[simp] theorem toNat_pattern_inSource (u : InSource) :
    u.pattern.toNat = inSourceNumber u := by cases u <;> rfl
@[simp] theorem toNat_pattern_outDestination (d : OutDestination) :
    d.pattern.toNat = outDestinationNumber d := by cases d <;> rfl
@[simp] theorem toNat_pattern_movDestination (d : MovDestination) :
    d.pattern.toNat = movDestinationNumber d := by cases d <;> rfl
@[simp] theorem toNat_pattern_movOperation (o : MovOperation) :
    o.pattern.toNat = movOperationNumber o := by cases o <;> rfl
@[simp] theorem toNat_pattern_movSource (u : MovSource) :
    u.pattern.toNat = movSourceNumber u := by cases u <;> rfl
@[simp] theorem toNat_pattern_setDestination (d : SetDestination) :
    d.pattern.toNat = setDestinationNumber d := by cases d <;> rfl

theorem toNat_ofBool_eq_bitNumber (b : Bool) : (BitVec.ofBool b).toNat = bitNumber b := by
  cases b <;> rfl

@[simp] theorem toNat_fieldOfBitCount (n : BitCount) : (fieldOfBitCount n).toNat = countNumber n := by
  unfold fieldOfBitCount countNumber
  split
  · rfl
  · next hn => exact Nat.mod_eq_of_lt (by have := n.isLt; omega)

/-! ### Packing a field is adding it (41_encode.md R132) -/

section Field

variable {n lo v : Nat} {w : Word}

/-- A field stays below the bit after its last one. -/
theorem two_pow_mul_toNat_lt (lo : Nat) (x : BitVec n) : 2 ^ lo * x.toNat < 2 ^ (lo + n) := by
  rw [Nat.pow_add]
  exact Nat.mul_lt_mul_of_pos_left x.isLt (Nat.two_pow_pos lo)

/-- A positioned field that ends inside the word loses no bit. -/
theorem toNat_positioned (h : lo + n ≤ 16) (x : BitVec n) :
    (positioned lo x).toNat = 2 ^ lo * x.toNat := by
  have hx : x.toNat < 2 ^ 16 := x.isLt.trans_le (Nat.pow_le_pow_right (by decide) (by omega))
  have hfit : 2 ^ lo * x.toNat < 2 ^ 16 :=
    (two_pow_mul_toNat_lt lo x).trans_le (Nat.pow_le_pow_right (by decide) h)
  rw [positioned, BitVec.toNat_shiftLeft, BitVec.toNat_setWidth, Nat.mod_eq_of_lt hx,
    Nat.shiftLeft_eq, Nat.mul_comm, Nat.mod_eq_of_lt hfit]

/-- The fields do not overlap (30_encoding.md R63): into a word that holds only bits from `lo + n` up, packing the
`n` bits at `lo` adds them to its value. -/
theorem toNat_or_positioned (hw : w.toNat = 2 ^ (lo + n) * v) (h : lo + n ≤ 16) (x : BitVec n) :
    (w ||| positioned lo x).toNat = 2 ^ lo * (2 ^ n * v + x.toNat) := by
  rw [BitVec.toNat_or, toNat_positioned h, hw, ← Nat.two_pow_add_eq_or_of_lt (two_pow_mul_toNat_lt lo x)]
  ring

theorem toNat_or_positionedFlag (hw : w.toNat = 2 ^ (lo + 1) * v) (h : lo + 1 ≤ 16) (flag : Bool) :
    (w ||| positionedFlag lo flag).toNat = 2 ^ lo * (2 * v + bitNumber flag) := by
  rw [positionedFlag, toNat_or_positioned hw h, toNat_ofBool_eq_bitNumber, Nat.pow_one]

end Field

/-! ### The value of each packed word -/

/-- The layout of jmp, in, out and set (30_encoding.md R65, R67, R68, R73): a tag, three bits and five bits. -/
theorem toNat_tag_three_five {tag : Word} {v : Nat} (htag : tag.toNat = 2 ^ 8 * v) (x : BitVec 3)
    (y : BitVec 5) :
    (tag ||| positioned 5 x ||| positioned 0 y).toNat = 256 * v + 32 * x.toNat + y.toNat := by
  have hx := toNat_or_positioned (lo := 5) htag (by decide) x
  have hy := toNat_or_positioned (lo := 0) hx (by decide) y
  omega

/-- R121. -/
theorem toNat_packJump (c : JumpCondition) (t : Addr5) :
    (packJump c t).toNat = 32 * conditionNumber c + t.toNat := by
  rw [packJump, toNat_tag_three_five (v := 0) rfl, toNat_pattern_jumpCondition]
  omega

/-- R122. -/
theorem toNat_packWait (p : Bit1) (u : WaitSource) (n : Index5) :
    (packWait p u n).toNat = 0x2000 + 128 * p.toNat + 32 * waitSourceNumber u + n.toNat := by
  have hp := toNat_or_positioned (w := 0x2000#16) (lo := 7) (v := 0x20) rfl (by decide) p
  have hu := toNat_or_positioned (lo := 5) hp (by decide) u.pattern
  have hn := toNat_or_positioned (lo := 0) hu (by decide) n
  rw [packWait, hn, toNat_pattern_waitSource]
  omega

/-- R123. -/
theorem toNat_packShiftIn (u : InSource) (n : BitCount) :
    (packShiftIn u n).toNat = 0x4000 + 32 * inSourceNumber u + countNumber n := by
  rw [packShiftIn, toNat_tag_three_five (v := 0x40) rfl, toNat_pattern_inSource, toNat_fieldOfBitCount]

/-- R124. -/
theorem toNat_packShiftOut (d : OutDestination) (n : BitCount) :
    (packShiftOut d n).toNat = 0x6000 + 32 * outDestinationNumber d + countNumber n := by
  rw [packShiftOut, toNat_tag_three_five (v := 0x60) rfl, toNat_pattern_outDestination,
    toNat_fieldOfBitCount]

/-- The layout of push, pull and irq above bit 4 (R69, R70, R72): a tag, bit 7 with it, and two flags. -/
theorem toNat_tag_flags {tag : Word} {v : Nat} (htag : tag.toNat = 2 ^ 7 * v) (f b : Bool) :
    (tag ||| positionedFlag 6 f ||| positionedFlag 5 b).toNat =
      2 ^ 5 * (2 * (2 * v + bitNumber f) + bitNumber b) :=
  toNat_or_positionedFlag (toNat_or_positionedFlag (lo := 6) htag (by decide) f) (by decide) b

/-- R125. -/
theorem toNat_packPush (f b : Bool) :
    (packPush f b).toNat = 0x8000 + 64 * bitNumber f + 32 * bitNumber b := by
  rw [packPush, toNat_tag_flags (v := 0x100) rfl]
  omega

/-- R126: bit 7 stands beside the tag. -/
theorem toNat_packPull (e b : Bool) :
    (packPull e b).toNat = 0x8000 + 128 + 64 * bitNumber e + 32 * bitNumber b := by
  rw [packPull, toNat_tag_flags (v := 0x101) rfl]
  omega

/-- R127. -/
theorem toNat_packMove (d : MovDestination) (o : MovOperation) (u : MovSource) :
    (packMove d o u).toNat =
      0xA000 + 32 * movDestinationNumber d + 8 * movOperationNumber o + movSourceNumber u := by
  have hd := toNat_or_positioned (w := 0xA000#16) (lo := 5) (v := 0xA0) rfl (by decide) d.pattern
  have ho := toNat_or_positioned (lo := 3) hd (by decide) o.pattern
  have hu := toNat_or_positioned (lo := 0) ho (by decide) u.pattern
  rw [packMove, hu, toNat_pattern_movDestination, toNat_pattern_movOperation, toNat_pattern_movSource]
  omega

/-- R128: bit 7 is 0. -/
theorem toNat_packIrq (c wt : Bool) (n : Index5) :
    (packIrq c wt n).toNat = 0xC000 + 64 * bitNumber c + 32 * bitNumber wt + n.toNat := by
  have hflags := toNat_tag_flags (tag := 0xC000#16) (v := 0x180) rfl c wt
  rw [packIrq, toNat_or_positioned (lo := 0) hflags (by decide)]
  omega

/-- R129. -/
theorem toNat_packSet (d : SetDestination) (v : Data5) :
    (packSet d v).toNat = 0xE000 + 32 * setDestinationNumber d + v.toNat := by
  rw [packSet, toNat_tag_three_five (v := 0xE0) rfl, toNat_pattern_setDestination]

end Sys2Proof

namespace Sys2Proof.Machine

open Sys2Proof.Claims

/-! ### The step of each encoder -/

/-- With Encode in progress, running an instruction delivers its word and changes nothing else. -/
theorem exec_encode_delivers {i j : Instr} {s : State} {v : Nat} (hc : s.call = some (.encode j))
    (hw : (encode i).toNat = v) :
    ∃ w : Word, exec i s = .next (ended s (.word w)) ∧ w.toNat = v :=
  ⟨encode i, exec_encode hc, hw⟩

/-- Settles O1: the word delivered is that of `packJump`. -/
theorem encodeJumpPacksItsFields : Obligations.EncodeJumpPacksItsFields :=
  fun c t _ _ hc => exec_encode_delivers hc (toNat_packJump c t)

/-- Settles O2: the word delivered is that of `packWait`. -/
theorem encodeWaitPacksItsFields : Obligations.EncodeWaitPacksItsFields :=
  fun p u n _ _ hc => exec_encode_delivers hc (toNat_packWait p u n)

/-- Settles O3: the word delivered is that of `packShiftIn`, whose value needs no bound on the count. -/
theorem encodeShiftInPacksItsFields : Obligations.EncodeShiftInPacksItsFields :=
  fun u n _ _ hc _ => exec_encode_delivers hc (toNat_packShiftIn u n)

/-- Settles O4: the word delivered is that of `packShiftOut`, whose value needs no bound on the count. -/
theorem encodeShiftOutPacksItsFields : Obligations.EncodeShiftOutPacksItsFields :=
  fun d n _ _ hc _ => exec_encode_delivers hc (toNat_packShiftOut d n)

/-- Settles O5: the word delivered is that of `packPush`. -/
theorem encodePushPacksItsFlags : Obligations.EncodePushPacksItsFlags :=
  fun f b _ _ hc => exec_encode_delivers hc (toNat_packPush f b)

/-- Settles O6: the word delivered is that of `packPull`. -/
theorem encodePullPacksItsFlagsAndBitSeven : Obligations.EncodePullPacksItsFlagsAndBitSeven :=
  fun e b _ _ hc => exec_encode_delivers hc (toNat_packPull e b)

/-- Settles O7: the word delivered is that of `packMove`. -/
theorem encodeMovePacksItsFields : Obligations.EncodeMovePacksItsFields :=
  fun d o u _ _ hc => exec_encode_delivers hc (toNat_packMove d o u)

/-- Settles O8: the word delivered is that of `packIrq`. -/
theorem encodeIrqPacksItsFields : Obligations.EncodeIrqPacksItsFields :=
  fun c wt n _ _ hc => exec_encode_delivers hc (toNat_packIrq c wt n)

/-- Settles O9: the word delivered is that of `packSet`. -/
theorem encodeSetPacksItsFields : Obligations.EncodeSetPacksItsFields :=
  fun d v _ _ hc => exec_encode_delivers hc (toNat_packSet d v)

end Sys2Proof.Machine
end

section
/-! PROOFS. 41_encode.md R131: the decoder gives back every well-formed instruction, so no two have one word. -/

namespace Sys2Proof

/-- Unused bits that are 0 pass under both policies (42_decode.md R153). -/
@[simp] theorem afterUnusedBits_zero {α : Type} (config : Config) (field : Field) (k : Except Error α) :
    afterUnusedBits config field 0 k = k := by
  unfold afterUnusedBits
  split
  · rfl
  · exact if_neg (fun h => h rfl)

/-- The decoder undoes the encoder (42_decode.md R156): it dispatches on the tag, and each unpacker finds the
fields that the packer of that tag positioned. -/
theorem decode_encode (config : Config) {i : Instr} (h : i.wellFormed = true) :
    decode config (encode i) = .ok i := by
  rw [decode_of_no_sideSet config (delaySideSetOf_encode i)]
  cases i with
  | jump c t => simp [encode, dispatch, unpackJump_eq, Except.map]
  | wait p u n => simp [encode, dispatch, unpackWait_eq, Except.map]
  | shiftIn u n =>
    have hn : n ≠ 0 := by simpa [Instr.wellFormed] using h
    simp [encode, dispatch, unpackShiftIn_eq, Except.map, bitCountOf_fieldOfBitCount hn]
  | shiftOut d n =>
    have hn : n ≠ 0 := by simpa [Instr.wellFormed] using h
    simp [encode, dispatch, unpackShiftOut_eq, Except.map, bitCountOf_fieldOfBitCount hn]
  | push f b => simp [encode, dispatch, unpackPush_eq]
  | pull e b => simp [encode, dispatch, unpackPull_eq]
  | move d o u => simp [encode, dispatch, unpackMove_eq, bind, Except.bind]
  | irq c wt n => simp [encode, dispatch, unpackIrq_eq]
  | set d v => simp [encode, dispatch, unpackSet_eq, Except.map]

/-- Settles O43: the decoder is a left inverse of the encoder. -/
theorem encodeIsInjective : Obligations.EncodeIsInjective := by
  intro i j hi hj hij
  have hok : (Except.ok i : Except Error Instr) = .ok j :=
    calc .ok i = decode Config.default (encode i) := (decode_encode Config.default hi).symm
      _ = decode Config.default (encode j) := by rw [hij]
      _ = .ok j := decode_encode Config.default hj
  exact Except.ok.inj hok

end Sys2Proof
end

section
/-! PROOFS. 42_decode.md R156: decoding an encoded instruction gives it back, and the constructors give nothing but
instructions of which that holds. -/

namespace Sys2Proof

/-- What comes after the side-set check is what a successful construction answered (40_construction.md R111). -/
theorem afterDelaySideSet_eq_ok {α : Type} {d : Nat} {k : Except Error α} {a : α}
    (h : afterDelaySideSet d k = .ok a) : k = .ok a := by
  unfold afterDelaySideSet at h
  split at h
  · cases h
  · exact h

/-- A range check that answered gave what comes after it (R101). -/
theorem rangeCheck_eq_ok {α : Type} {bad : Prop} [Decidable bad] {field : Field} {n : Nat}
    {k : Except Error α} {a : α} (h : (if bad then outOfRange field n else k) = .ok a) : k = .ok a := by
  split at h
  · cases h
  · exact h

/-- An accepted bit count makes an instruction whose bit count is not 0 (R103). -/
theorem storedBitCount_map_eq_ok {c : BitCountConvention} {field : Field} {n : Nat}
    {make : BitCount → Instr} {i : Instr} (h : (storedBitCount c field n).map make = .ok i) :
    ∃ b : BitCount, b ≠ 0 ∧ make b = i := by
  cases hb : storedBitCount c field n with
  | error e => rw [hb] at h; cases h
  | ok b => rw [hb] at h; exact ⟨b, (storedBitCount_eq_ok hb).1, Except.ok.inj h⟩

/-- A constructor gives only well-formed instructions (10_state.md R28): a bit count that is accepted is stored as
1 to 32, and the type of every other field keeps its range. -/
theorem construct_wellFormed {config : Config} {o : Operands} {d : Nat} {i : Instr}
    (h : construct config o d = .ok i) : i.wellFormed = true := by
  cases o with
  | jump c t => cases rangeCheck_eq_ok (afterDelaySideSet_eq_ok h); rfl
  | wait p u n => cases rangeCheck_eq_ok (rangeCheck_eq_ok (afterDelaySideSet_eq_ok h)); rfl
  | shiftIn u n =>
    obtain ⟨b, hb, rfl⟩ := storedBitCount_map_eq_ok (afterDelaySideSet_eq_ok h)
    exact bne_iff_ne.2 hb
  | shiftOut u n =>
    obtain ⟨b, hb, rfl⟩ := storedBitCount_map_eq_ok (afterDelaySideSet_eq_ok h)
    exact bne_iff_ne.2 hb
  | push f b => cases afterDelaySideSet_eq_ok h; rfl
  | pull e b => cases afterDelaySideSet_eq_ok h; rfl
  | move m p u => cases afterDelaySideSet_eq_ok h; rfl
  | irq c wt n => cases rangeCheck_eq_ok (afterDelaySideSet_eq_ok h); rfl
  | set m v => cases rangeCheck_eq_ok (afterDelaySideSet_eq_ok h); rfl

/-- Settles O41: the decoder undoes the encoder, and a constructor checks what well-formedness asks. -/
theorem decodeOfEncodeGivesTheInstruction : Obligations.DecodeOfEncodeGivesTheInstruction :=
  ⟨fun config _ h => decode_encode config h, fun _ _ _ _ h => construct_wellFormed h⟩

end Sys2Proof
end

section
/-! PROOFS. 42_decode.md R144 to R152: what a step with Decode in progress ends with, by the word's tag. -/

namespace Sys2Proof

open Sys2Proof.Claims

/-! ### The fields of the model are the bits that the statements write out (00_scope.md R7) -/

theorem slice_lt (w : Word) (lo n : Nat) : slice w lo n < 2 ^ n := Nat.mod_lt _ (Nat.two_pow_pos n)

theorem toNat_extractLsb'_eq_slice (w : Word) (lo n : Nat) :
    (w.extractLsb' lo n).toNat = slice w lo n := by
  rw [BitVec.extractLsb'_toNat, Nat.shiftRight_eq_div_pow, slice]

theorem toNat_tagOf (w : Word) : (tagOf w).toNat = slice w 13 3 := toNat_extractLsb'_eq_slice w 13 3
theorem toNat_delaySideSetOf (w : Word) : (delaySideSetOf w).toNat = slice w 8 5 :=
  toNat_extractLsb'_eq_slice w 8 5
theorem toNat_field75 (w : Word) : (field75 w).toNat = slice w 5 3 := toNat_extractLsb'_eq_slice w 5 3
theorem toNat_field40 (w : Word) : (field40 w).toNat = slice w 0 5 := toNat_extractLsb'_eq_slice w 0 5

theorem getLsbD_eq_slice (w : Word) (k : Nat) : w.getLsbD k = (slice w k 1 == 1) := by
  rw [BitVec.getLsbD, Nat.testBit_eq_decide_div_mod_eq, slice, Nat.pow_one]; rfl

/-- The bit count of a count field, 0 standing for 32 (30_encoding.md R82). -/
theorem val_bitCountOf_field40 (w : Word) :
    (bitCountOf (field40 w)).val = if slice w 0 5 = 0 then 32 else slice w 0 5 := by
  have h : ∀ f : BitVec 5, (bitCountOf f).val = if f.toNat = 0 then 32 else f.toNat := by decide
  rw [h, toNat_field40]

/-- The tag that push and pull share is dispatched on bit 7 (R142). -/
theorem dispatch_fifo (config : Config) (w : Word) :
    dispatch config 4 w = if slice w 7 1 = 1 then unpackPull config w else unpackPush config w := by
  show (if w.getLsbD 7 then unpackPull config w else unpackPush config w) = _
  simp only [getLsbD_eq_slice, beq_iff_eq]

/-! ### The check of an unused field (R153) -/

theorem afterUnusedBits_of_ignore {α : Type} {config : Config} (hi : config.unusedBits = .ignore)
    (field : Field) (x : Nat) (k : Except Error α) : afterUnusedBits config field x k = k := by
  simp only [afterUnusedBits, hi]

theorem afterUnusedBits_of_reject {α : Type} {config : Config} (hr : config.unusedBits = .reject)
    (field : Field) {x : Nat} (hx : x ≠ 0) (k : Except Error α) :
    afterUnusedBits config field x k = unrecognizedValue field x := by
  simp only [afterUnusedBits, hr, if_pos hx]

/-! ### Lookup, by the numbers of the spec's tables -/

section Lookup

variable {ε : Type} {n v : Nat} {all : List ε} {pattern : ε → BitVec n} {number : ε → Nat}
  {field : Field} {p : BitVec n}

theorem lookup_of_assigned (hn : ∀ e, (pattern e).toNat = number e) (hp : p.toNat = v)
    (h : ∃ e ∈ all, number e = v) : ∃ e, number e = v ∧ lookup all pattern field p = .ok e := by
  cases hl : lookup all pattern field p with
  | ok e =>
    obtain ⟨he, -⟩ := lookup_eq_ok hl
    exact ⟨e, by rw [← hn, he, hp], rfl⟩
  | error x =>
    obtain ⟨-, hx⟩ := lookup_eq_error hl
    obtain ⟨e, he, hv⟩ := h
    exact absurd (BitVec.eq_of_toNat_eq (by rw [hn, hv, hp])) (hx e he)

theorem lookup_of_unassigned (hn : ∀ e, (pattern e).toNat = number e) (hp : p.toNat = v)
    (h : ∀ e ∈ all, number e ≠ v) : lookup all pattern field p = unrecognizedValue field v := by
  cases hl : lookup all pattern field p with
  | ok e =>
    obtain ⟨he, hmem⟩ := lookup_eq_ok hl
    exact absurd (by rw [← hn, he, hp]) (h e hmem)
  | error x => rw [(lookup_eq_error hl).1, hp]; rfl

end Lookup

end Sys2Proof

namespace Sys2Proof.Machine

open Sys2Proof.Claims

variable {s : State} {w : Word}

/-! ### The step, from the dispatch on the tag -/

@[simp] theorem decodeResult_unrecognizedValue (field : Field) (v : Nat) :
    decodeResult (unrecognizedValue field v) = unrecognized field v := rfl

theorem decodeResult_afterUnusedBits (s : State) (field : Field) (v : Nat) (k : Except Error Instr) :
    decodeResult (afterUnusedBits s.config field v k) = afterUnused s field v (decodeResult k) := by
  cases hpolicy : s.config.unusedBits with
  | ignore => rw [afterUnusedBits_of_ignore hpolicy, afterUnused, if_neg (by simp [hpolicy])]
  | reject =>
    by_cases hv : v = 0
    · rw [hv, afterUnusedBits_zero, afterUnused, if_neg (by simp)]
    · rw [afterUnusedBits_of_reject hpolicy _ hv, afterUnused, if_pos ⟨hpolicy, hv⟩]; rfl

/-- The check of bits 12:8 comes before the dispatch, and only under `Reject` (R153). -/
theorem decodeResult_decode (s : State) (w : Word) :
    decodeResult (Sys2Proof.decode s.config w) =
      afterSideSet s w (decodeResult (dispatch s.config (slice w 13 3) w)) := by
  rw [← toNat_tagOf, afterSideSet, ← toNat_delaySideSetOf]
  cases hpolicy : s.config.unusedBits with
  | ignore => rw [decode_of_ignore hpolicy, if_neg (by simp)]
  | reject =>
    by_cases hside : delaySideSetOf w = 0
    · rw [decode_of_no_sideSet s.config hside, if_neg (by simp [hside])]
    · have hne : (delaySideSetOf w).toNat ≠ 0 := fun h => hside (BitVec.eq_of_toNat_eq h)
      rw [decode_of_sideSet hpolicy hside, if_pos ⟨rfl, hne⟩]; rfl

/-- A decode ends with the answer of the unpacker of the word's tag, and nothing else changes. -/
theorem step_decode_dispatch {tag : Nat} {answer : Except Error Instr}
    (hc : s.call = some (.decode w)) (htag : slice w 13 3 = tag)
    (hd : dispatch s.config tag w = answer) :
    step s = .next (ended s (afterSideSet s w (decodeResult answer))) := by
  rw [step_decode hc, decodeResult_decode, htag, hd]; rfl

/-- The step of a decoder whose only check is one lookup (R144 to R147, R152). -/
theorem step_decode_lookup {ε : Type} {n tag v : Nat} {all : List ε} {pattern : ε → BitVec n}
    {number : ε → Nat} {field : Field} {p : BitVec n} {make : ε → Instr}
    (hn : ∀ e, (pattern e).toNat = number e) (hc : s.call = some (.decode w))
    (htag : slice w 13 3 = tag) (hd : dispatch s.config tag w = (lookup all pattern field p).map make)
    (hp : p.toNat = v) :
    ((∃ e ∈ all, number e = v) → ∃ e, number e = v ∧ step s = .next (ended s
      (afterSideSet s w (.decoded (make e) (make e).variantIndex)))) ∧
    ((∀ e ∈ all, number e ≠ v) →
      step s = .next (ended s (afterSideSet s w (unrecognized field v)))) := by
  rw [step_decode_dispatch hc htag hd]
  refine ⟨fun h => ?_, fun h => ?_⟩
  · obtain ⟨e, he, hl⟩ := lookup_of_assigned (field := field) hn hp h
    exact ⟨e, he, by rw [hl]; rfl⟩
  · rw [lookup_of_unassigned hn hp h]; rfl

/-! ### Each variant -/

/-- Settles O10: every pattern is the condition of some jump. -/
theorem decodeJumpWord : Obligations.DecodeJumpWord := by
  intro s w hc htag
  have hassigned : ∀ v < 8, ∃ c ∈ JumpCondition.all, conditionNumber c = v := by decide
  obtain ⟨hok, -⟩ := step_decode_lookup toNat_pattern_jumpCondition hc htag
    (unpackJump_eq w) (toNat_field75 w)
  obtain ⟨c, hnum, hstep⟩ := hok (hassigned _ (slice_lt w 5 3))
  exact ⟨c, field40 w, hnum, toNat_field40 w, hstep⟩

/-- Settles O11: 0b11 is the one unassigned source. -/
theorem decodeWaitWord : Obligations.DecodeWaitWord := by
  intro s w hc htag
  have hassigned : ∀ v < 4, v ≠ 3 → ∃ u ∈ WaitSource.all, waitSourceNumber u = v := by decide
  have hunassigned : ∀ u ∈ WaitSource.all, waitSourceNumber u ≠ 3 := by decide
  obtain ⟨hok, herr⟩ := step_decode_lookup toNat_pattern_waitSource hc htag
    (unpackWait_eq w) (toNat_extractLsb'_eq_slice w 5 2)
  refine ⟨fun h3 => ?_, fun h3 => ?_⟩
  · rw [h3] at herr
    exact herr hunassigned
  · obtain ⟨u, hnum, hstep⟩ := hok (hassigned _ (slice_lt w 5 2) h3)
    exact ⟨w.extractLsb' 7 1, u, field40 w, toNat_extractLsb'_eq_slice w 7 1, hnum,
      toNat_field40 w, hstep⟩

/-- Settles O12: 4 and 5 are the unassigned sources. -/
theorem decodeShiftInWord : Obligations.DecodeShiftInWord := by
  intro s w hc htag
  have hassigned : ∀ v < 8, v ≠ 4 ∧ v ≠ 5 → ∃ u ∈ InSource.all, inSourceNumber u = v := by decide
  have hunassigned : ∀ v < 8, v = 4 ∨ v = 5 → ∀ u ∈ InSource.all, inSourceNumber u ≠ v := by decide
  obtain ⟨hok, herr⟩ := step_decode_lookup toNat_pattern_inSource hc htag
    (unpackShiftIn_eq s.config w) (toNat_field75 w)
  refine ⟨fun h => herr (hunassigned _ (slice_lt w 5 3) h), fun h => ?_⟩
  obtain ⟨u, hnum, hstep⟩ := hok (hassigned _ (slice_lt w 5 3) h)
  exact ⟨u, bitCountOf (field40 w), hnum, val_bitCountOf_field40 w, hstep⟩

/-- Settles O13: every pattern is the destination of some shift out. -/
theorem decodeShiftOutWord : Obligations.DecodeShiftOutWord := by
  intro s w hc htag
  have hassigned : ∀ v < 8, ∃ d ∈ OutDestination.all, outDestinationNumber d = v := by decide
  obtain ⟨hok, -⟩ := step_decode_lookup toNat_pattern_outDestination hc htag
    (unpackShiftOut_eq s.config w) (toNat_field75 w)
  obtain ⟨d, hnum, hstep⟩ := hok (hassigned _ (slice_lt w 5 3))
  exact ⟨d, bitCountOf (field40 w), hnum, val_bitCountOf_field40 w, hstep⟩

/-- Settles O18: 3, 5, 6 and 7 are the unassigned destinations. -/
theorem decodeSetWord : Obligations.DecodeSetWord := by
  intro s w hc htag
  have hassigned : ∀ v, v = 0 ∨ v = 1 ∨ v = 2 ∨ v = 4 →
      ∃ d ∈ SetDestination.all, setDestinationNumber d = v := by
    rintro _ (rfl | rfl | rfl | rfl) <;> decide
  have hunassigned : ∀ v < 8, v = 3 ∨ v = 5 ∨ v = 6 ∨ v = 7 →
      ∀ d ∈ SetDestination.all, setDestinationNumber d ≠ v := by decide
  obtain ⟨hok, herr⟩ := step_decode_lookup toNat_pattern_setDestination hc htag
    (unpackSet_eq w) (toNat_field75 w)
  refine ⟨fun h => herr (hunassigned _ (slice_lt w 5 3) h), fun h => ?_⟩
  obtain ⟨d, hnum, hstep⟩ := hok (hassigned _ h)
  exact ⟨d, field40 w, hnum, toNat_field40 w, hstep⟩

/-- Settles O14: bit 7 is 0, and bits 4:0 are the unused ones. -/
theorem decodePushWord : Obligations.DecodePushWord := by
  intro s w hc htag h7
  rw [step_decode_dispatch hc htag (dispatch_fifo s.config w), if_neg (by rw [h7]; decide),
    unpackPush_eq, decodeResult_afterUnusedBits, toNat_field40, getLsbD_eq_slice, getLsbD_eq_slice]
  rfl

/-- Settles O15: bit 7 is 1, and bits 4:0 are the unused ones. -/
theorem decodePullWord : Obligations.DecodePullWord := by
  intro s w hc htag h7
  rw [step_decode_dispatch hc htag (dispatch_fifo s.config w), if_pos h7, unpackPull_eq,
    decodeResult_afterUnusedBits, toNat_field40, getLsbD_eq_slice, getLsbD_eq_slice]
  rfl

/-- Settles O17: bit 7 is the unused one. -/
theorem decodeIrqWord : Obligations.DecodeIrqWord := by
  intro s w hc htag
  refine ⟨field40 w, toNat_field40 w, ?_⟩
  rw [step_decode_dispatch hc htag (unpackIrq_eq s.config w), decodeResult_afterUnusedBits,
    toNat_extractLsb'_eq_slice, getLsbD_eq_slice, getLsbD_eq_slice]
  rfl

/-- Settles O16: the three lookups of `unpackMove` in its order, each with its one unassigned pattern. -/
theorem decodeMoveWord : Obligations.DecodeMoveWord := by
  intro s w hc htag
  have hd : ∀ v < 8, v ≠ 3 → ∃ d ∈ MovDestination.all, movDestinationNumber d = v := by decide
  have ho : ∀ v < 4, v ≠ 3 → ∃ o ∈ MovOperation.all, movOperationNumber o = v := by decide
  have hu : ∀ v < 8, v ≠ 4 → ∃ u ∈ MovSource.all, movSourceNumber u = v := by decide
  have hdest := fun h => lookup_of_assigned (field := .moveDestination) toNat_pattern_movDestination
    (toNat_field75 w) (hd _ (slice_lt w 5 3) h)
  have hop := fun h => lookup_of_assigned (field := .moveOperation) toNat_pattern_movOperation
    (toNat_extractLsb'_eq_slice w 3 2) (ho _ (slice_lt w 3 2) h)
  have hsrc := fun h => lookup_of_assigned (field := .moveSource) toNat_pattern_movSource
    (toNat_extractLsb'_eq_slice w 0 3) (hu _ (slice_lt w 0 3) h)
  rw [step_decode_dispatch hc htag (unpackMove_eq w)]
  refine ⟨fun hdst => ?_, fun hdst hopr => ?_, fun hdst hopr hsource => ?_, fun hdst hopr hsource => ?_⟩
  · rw [lookup_of_unassigned toNat_pattern_movDestination ((toNat_field75 w).trans hdst) (by decide)]
    rfl
  · obtain ⟨d, -, hld⟩ := hdest hdst
    rw [hld, lookup_of_unassigned toNat_pattern_movOperation
      ((toNat_extractLsb'_eq_slice w 3 2).trans hopr) (by decide)]
    rfl
  · obtain ⟨d, -, hld⟩ := hdest hdst
    obtain ⟨o, -, hlo⟩ := hop hopr
    rw [hld, hlo, lookup_of_unassigned toNat_pattern_movSource
      ((toNat_extractLsb'_eq_slice w 0 3).trans hsource) (by decide)]
    rfl
  · obtain ⟨d, hnd, hld⟩ := hdest hdst
    obtain ⟨o, hno, hlo⟩ := hop hopr
    obtain ⟨u, hnu, hlu⟩ := hsrc hsource
    exact ⟨d, o, u, hnd, hno, hnu, by rw [hld, hlo, hlu]; rfl⟩

end Sys2Proof.Machine
end

section
/-! PROOFS. 42_decode.md R153: under `Ignore` the decoder reads no unused bit, under `Reject` it refuses one. -/

namespace Sys2Proof

open Sys2Proof.Claims

/-! ### Words that agree on the bits of a mask -/

section Mask

variable {v w m : Word}

theorem extractLsb'_eq_of_and_eq (h : v &&& m = w &&& m) {lo n : Nat}
    (hm : m.extractLsb' lo n = BitVec.allOnes n) : v.extractLsb' lo n = w.extractLsb' lo n := by
  have he := congrArg (fun x : Word => x.extractLsb' lo n) h
  simpa only [BitVec.extractLsb'_and, hm, BitVec.and_allOnes] using he

theorem getLsbD_eq_of_and_eq (h : v &&& m = w &&& m) {k : Nat} (hm : m.getLsbD k = true) :
    v.getLsbD k = w.getLsbD k := by
  have he := congrArg (fun x : Word => x.getLsbD k) h
  simpa only [BitVec.getLsbD_and, hm, Bool.and_true] using he

/-- Under `Ignore`, words with one tag decode alike when that tag's unpacker answers alike. -/
theorem decode_congr_of_ignore {config : Config} (hi : config.unusedBits = .ignore)
    (h : v &&& m = w &&& m) (hm : m.extractLsb' 13 3 = BitVec.allOnes 3)
    (hd : dispatch config (slice w 13 3) v = dispatch config (slice w 13 3) w) :
    decode config v = decode config w := by
  have htag : tagOf v = tagOf w := extractLsb'_eq_of_and_eq h hm
  rw [decode_of_ignore hi, decode_of_ignore hi, htag, toNat_tagOf, hd]

/-- An unpacker reads the fields of the operand byte only, and they are the same. -/
theorem dispatch_congr_of_operandByte (h : v &&& 0xE0FF#16 = w &&& 0xE0FF#16) (config : Config)
    (tag : Nat) : dispatch config tag v = dispatch config tag w := by
  have h75 : field75 v = field75 w := extractLsb'_eq_of_and_eq h rfl
  have h40 : field40 v = field40 w := extractLsb'_eq_of_and_eq h rfl
  have h65 : v.extractLsb' 5 2 = w.extractLsb' 5 2 := extractLsb'_eq_of_and_eq h rfl
  have h43 : v.extractLsb' 3 2 = w.extractLsb' 3 2 := extractLsb'_eq_of_and_eq h rfl
  have h20 : v.extractLsb' 0 3 = w.extractLsb' 0 3 := extractLsb'_eq_of_and_eq h rfl
  have h77 : v.extractLsb' 7 1 = w.extractLsb' 7 1 := extractLsb'_eq_of_and_eq h rfl
  have h7 : v.getLsbD 7 = w.getLsbD 7 := getLsbD_eq_of_and_eq h rfl
  have h6 : v.getLsbD 6 = w.getLsbD 6 := getLsbD_eq_of_and_eq h rfl
  have h5 : v.getLsbD 5 = w.getLsbD 5 := getLsbD_eq_of_and_eq h rfl
  unfold dispatch
  simp only [unpackJump_eq, unpackWait_eq, unpackShiftIn_eq, unpackShiftOut_eq, unpackPush_eq,
    unpackPull_eq, unpackMove_eq, unpackIrq_eq, unpackSet_eq, h75, h40, h65, h43, h20, h77, h7, h6, h5]

end Mask

/-- Under `Ignore` push and pull read bits 7:5 of the operand byte only. -/
theorem dispatch_fifo_congr_of_ignore {config : Config} (hi : config.unusedBits = .ignore)
    {v w : Word} (h : v &&& 0xE0E0#16 = w &&& 0xE0E0#16) :
    dispatch config 4 v = dispatch config 4 w := by
  have h7 : v.getLsbD 7 = w.getLsbD 7 := getLsbD_eq_of_and_eq h rfl
  have h6 : v.getLsbD 6 = w.getLsbD 6 := getLsbD_eq_of_and_eq h rfl
  have h5 : v.getLsbD 5 = w.getLsbD 5 := getLsbD_eq_of_and_eq h rfl
  simp only [dispatch, unpackPush_eq, unpackPull_eq, afterUnusedBits_of_ignore hi, h7, h6, h5]

/-- Under `Ignore` irq reads bits 6:0 of the operand byte only. -/
theorem dispatch_irq_congr_of_ignore {config : Config} (hi : config.unusedBits = .ignore)
    {v w : Word} (h : v &&& 0xE07F#16 = w &&& 0xE07F#16) :
    dispatch config 6 v = dispatch config 6 w := by
  have h40 : field40 v = field40 w := extractLsb'_eq_of_and_eq h rfl
  have h6 : v.getLsbD 6 = w.getLsbD 6 := getLsbD_eq_of_and_eq h rfl
  have h5 : v.getLsbD 5 = w.getLsbD 5 := getLsbD_eq_of_and_eq h rfl
  simp only [dispatch, unpackIrq_eq, afterUnusedBits_of_ignore hi, h40, h6, h5]

/-- With bits 12:8 at 0 the decoder is the unpacker of the tag. -/
theorem decode_of_slice_sideSet (config : Config) {w : Word} (h : slice w 8 5 = 0) :
    decode config w = dispatch config (slice w 13 3) w := by
  rw [decode_of_no_sideSet config (BitVec.eq_of_toNat_eq ((toNat_delaySideSetOf w).trans h)),
    toNat_tagOf]

/-- Settles O44: under `Ignore` by the bits each unpacker reads, under `Reject` by the check each makes first. -/
theorem unusedBitsPolicyOfTheDecoder : Obligations.UnusedBitsPolicyOfTheDecoder := by
  refine fun config => ⟨fun hi v w => ⟨fun h => ?_, fun htag h => ?_, fun htag h => ?_⟩,
    fun hr w => ⟨fun h8 => ?_, fun h8 htag h7 h0 => ?_, fun h8 htag h7 h0 => ?_,
      fun h8 htag h7 => ?_⟩⟩
  · exact decode_congr_of_ignore hi h rfl (dispatch_congr_of_operandByte h config _)
  · exact decode_congr_of_ignore hi h rfl (htag ▸ dispatch_fifo_congr_of_ignore hi h)
  · exact decode_congr_of_ignore hi h rfl (htag ▸ dispatch_irq_congr_of_ignore hi h)
  · rw [← toNat_delaySideSetOf] at h8 ⊢
    exact decode_of_sideSet hr (fun h => h8 (congrArg BitVec.toNat h))
  · rw [decode_of_slice_sideSet config h8, htag, dispatch_fifo, if_neg (by rw [h7]; decide),
      unpackPush_eq, toNat_field40, afterUnusedBits_of_reject hr _ h0]
    rfl
  · rw [decode_of_slice_sideSet config h8, htag, dispatch_fifo, if_pos h7,
      unpackPull_eq, toNat_field40, afterUnusedBits_of_reject hr _ h0]
    rfl
  · rw [decode_of_slice_sideSet config h8, htag]
    show unpackIrq config w = _
    rw [unpackIrq_eq, toNat_extractLsb'_eq_slice, afterUnusedBits_of_reject hr _ h7]
    rfl

end Sys2Proof
end

section
/-! PROOFS. 43_buffers.md: what the buffer operations store and read, the round trip through the buffer, and what no
run changes. -/

namespace Sys2Proof.Machine

open Sys2Proof.Claims

variable {s s' : State}

/-! ### The values of a word's bytes (20_memory.md R43) -/

theorem toNat_lowByte (w : Word) : (lowByte w).toNat = w.toNat % 256 := by
  simp [lowByte]

theorem toNat_highByte (w : Word) : (highByte w).toNat = w.toNat / 256 := by
  have hw : w.toNat / 256 < 256 := Nat.div_lt_of_lt_mul w.isLt
  rw [highByte, toNat_extractLsb'_eq_slice]
  exact Nat.mod_eq_of_lt hw

theorem toNat_wordOfBytes (b0 b1 : Byte) : (wordOfBytes b0 b1).toNat = b0.toNat + 256 * b1.toNat := by
  have hlow := toNat_lowByte (wordOfBytes b0 b1)
  have hhigh := toNat_highByte (wordOfBytes b0 b1)
  rw [lowByte_wordOfBytes] at hlow
  rw [highByte_wordOfBytes] at hhigh
  omega

/-! ### Storing a word and reading it back -/

/-- Reading the word just stored gives it. -/
theorem readWord_writeWord {m m' : Memory} {w : Word} (hm : m.wf) (h : m.writeWord w = some m') :
    m'.readWord = some w :=
  readWord_eq_some.2 ⟨lowByte w, highByte w, read_writeWord_zero hm h, read_writeWord_one hm h,
    (wordOfBytes_low_high w).symm⟩

/-- Settles O39: the store leaves the packed word, the read finds it, and the decoder undoes the encoder. -/
theorem bufferRoundTrip : Obligations.BufferRoundTrip := by
  intro i s hc hi hwf hsize hr
  obtain ⟨m, hm, hstore⟩ := storeWord_of_no_race (w := encode i) hr hsize
  refine ⟨_, (step_encodeToBuffer hc).trans hstore, rfl, ?_⟩
  obtain ⟨w, hw, hread⟩ := step_decodeFromBuffer_of_no_race
    (s := { (s.setBuffer m).finish .written with call := some .decodeFromBuffer }) rfl hr
    (hsize.trans_eq (writeWord_size hm).symm)
  obtain rfl : encode i = w := Option.some.inj ((readWord_writeWord hwf hm).symm.trans hw)
  rw [hread, decode_encode _ hi]
  rfl

/-- Settles O37: a store that fits leaves the two bytes of the packed word and nothing else; a short buffer refuses
it. -/
theorem encodeToBufferStoresTheWord : Obligations.EncodeToBufferStoresTheWord := by
  intro i j s hc hwf
  rw [exec_encodeToBuffer hc]
  refine ⟨fun hsize hr => ?_, storeWord_short⟩
  obtain ⟨m, hm, hstore⟩ := storeWord_of_no_race (w := encode i) hr hsize
  exact ⟨m, hstore, writeWord_size hm, writeWord_wf hwf hm,
    ⟨lowByte (encode i), highByte (encode i), read_writeWord_zero hwf hm, read_writeWord_one hwf hm,
      toNat_lowByte _, toNat_highByte _⟩,
    fun a h0 h1 => read_writeWord_beyond hm (by omega)⟩

/-- Settles O38: the step ends with the decoder's answer for the word of the two bytes; a short buffer refuses it. -/
theorem decodeFromBufferReadsTheWord : Obligations.DecodeFromBufferReadsTheWord := by
  intro s hc
  refine ⟨fun hsize hr => ?_, step_decodeFromBuffer_short hc⟩
  obtain ⟨w, hw, hstep⟩ := step_decodeFromBuffer_of_no_race hc hr hsize
  obtain ⟨b0, b1, h0, h1, rfl⟩ := readWord_eq_some.1 hw
  refine ⟨b0, b1, _, h0, h1, toNat_wordOfBytes b0 b1, fun i hi => ?_, fun e he => ?_⟩
  · rw [hstep, hi]; rfl
  · rw [hstep, he]; rfl

/-! ### What no step changes -/

/-- No step changes a parameter (10_state.md R24) or grows or shrinks the buffer (43_buffers.md R173): what is written
to it, by a store or by a race, goes through `writeWord`. -/
theorem step_keeps_config_and_bufferSize (hs : step s = .next s') :
    s'.config = s.config ∧ s'.buffer.size = s.buffer.size := by
  match hc : s.call with
  | none => rw [step_idle hc] at hs; cases hs; exact ⟨rfl, rfl⟩
  | some c =>
    rcases step_cases hc hs with ⟨r, rfl⟩ | ⟨-, x, -, rfl⟩ | ⟨j, earlier, m, -, -, hm, rfl⟩
    · exact ⟨rfl, rfl⟩
    · exact ⟨by simp, by simp [settle_size]⟩
    · exact ⟨by simp, by simpa using writeWord_size hm⟩

/-- Settles O55, by induction on the number of steps: each step keeps both. -/
theorem runsKeepTheParametersAndTheBufferSize :
    Obligations.RunsKeepTheParametersAndTheBufferSize := by
  intro k
  induction k with
  | zero => intro s s' h; cases h; exact ⟨rfl, rfl⟩
  | succ k ih =>
    intro s s' h
    obtain ⟨s₁, hs, hrun⟩ := next_of_run_succ core h
    obtain ⟨hconfig, hsize⟩ := step_keeps_config_and_bufferSize hs
    obtain ⟨hconfig', hsize'⟩ := ih s₁ s' hrun
    exact ⟨hconfig'.trans hconfig, hsize'.trans hsize⟩

end Sys2Proof.Machine
end

section
/-! PROOFS. 44_assembly_text.md: the decimal numbers of the text, and the line that each instruction is rendered as. -/

namespace Sys2Proof

open Sys2Proof.Claims

/-! ### Decimal numbers (R182) -/

theorem val_asciiDigit {d : Nat} (h : d < 10) : (asciiDigit d).val = 48 + d :=
  Nat.mod_eq_of_lt (by omega)

/-- The texts that R182 gives a number: one digit, or the text of `n / 10` and the last digit. -/
inductive IsDecimal : Nat → AsciiString → Prop
  | digit {d : Nat} (h : d < 10) : IsDecimal d [asciiDigit d]
  | append {n : Nat} {t : AsciiString} (h : 10 ≤ n) (ht : IsDecimal (n / 10) t) :
      IsDecimal n (t ++ [asciiDigit (n % 10)])

theorem isDecimal_decimalDigits {fuel n : Nat} (h : n < fuel) : IsDecimal n (decimalDigits fuel n) := by
  induction fuel generalizing n with
  | zero => exact absurd h n.not_lt_zero
  | succ fuel ih =>
    rw [decimalDigits]
    split
    · next hn => exact .digit hn
    · next hn => exact .append (Nat.le_of_not_lt hn) (ih (by omega))

/-- The model's fuel is enough for all the digits. -/
theorem isDecimal_decimal (n : Nat) : IsDecimal n (decimal n) := isDecimal_decimalDigits n.lt_succ_self

section
variable {n : Nat} {t : AsciiString}

/-- The value of the characters, read in base ten. -/
theorem IsDecimal.value (h : IsDecimal n t) : t.foldl (fun a c => 10 * a + (c.val - 48)) 0 = n := by
  induction h with
  | digit hd => simp [val_asciiDigit hd]
  | @append n t _ _ ih =>
    have hd : (asciiDigit (n % 10)).val = 48 + n % 10 := val_asciiDigit (n.mod_lt (by decide))
    rw [List.foldl_append, ih, List.foldl_cons, List.foldl_nil, hd]
    omega

theorem asciiDigit_bounds {d : Nat} (h : d < 10) : 48 ≤ (asciiDigit d).val ∧ (asciiDigit d).val ≤ 57 := by
  rw [val_asciiDigit h]; omega

theorem IsDecimal.bounds (h : IsDecimal n t) : ∀ c ∈ t, 48 ≤ c.val ∧ c.val ≤ 57 := by
  induction h with
  | digit hd => exact List.forall_mem_singleton.2 (asciiDigit_bounds hd)
  | append _ _ ih =>
    exact List.forall_mem_append.2
      ⟨ih, List.forall_mem_singleton.2 (asciiDigit_bounds (Nat.mod_lt _ (by decide)))⟩

theorem IsDecimal.ne_nil (h : IsDecimal n t) : t ≠ [] := by
  cases h with
  | digit => exact List.cons_ne_nil _ _
  | append => exact List.concat_ne_nil _ _

/-- Only the number 0 begins with the digit 0: the first digit is that of `n / 10`, which is not 0 either. -/
theorem IsDecimal.head?_ne_zero (h : IsDecimal n t) (hn : n ≠ 0) : t.head? ≠ some 48 := by
  induction h with
  | @digit d hd =>
    intro h0
    have hval := congrArg Fin.val (Option.some.inj h0)
    rw [val_asciiDigit hd] at hval
    exact hn (Nat.add_left_cancel hval)
  | append hn ht ih =>
    rw [List.head?_append_of_ne_nil _ ht.ne_nil]
    exact ih (by omega)

end

/-- Settles O35: by induction along the digits; a text of two or more digits is not that of 0. -/
theorem decimalTextIsTheNumber : Obligations.DecimalTextIsTheNumber := by
  intro n
  have hdec : IsDecimal n (decimal n) := isDecimal_decimal n
  refine ⟨hdec.value, hdec.bounds, hdec.ne_nil, fun hlong => hdec.head?_ne_zero ?_⟩
  rintro rfl
  exact absurd hlong (by decide)

/-! ### Tokens, target and index, as the rules write them (R181, R183, R184, R190, R193) -/

theorem render_jumpCondition (t : Tokens) (c : JumpCondition) :
    t.jumpCondition.render c = conditionToken t c := by cases c <;> rfl
theorem render_waitSource (t : Tokens) (u : WaitSource) :
    t.waitSource.render u = waitSourceToken t u := by cases u <;> rfl
theorem render_inSource (t : Tokens) (u : InSource) :
    t.inSource.render u = inSourceToken t u := by cases u <;> rfl
theorem render_outDestination (t : Tokens) (d : OutDestination) :
    t.outDestination.render d = outDestinationToken t d := by cases d <;> rfl
theorem render_movDestination (t : Tokens) (d : MovDestination) :
    t.movDestination.render d = movDestinationToken t d := by cases d <;> rfl
theorem render_movOperation (t : Tokens) (o : MovOperation) :
    t.movOperation.render o = movOperationToken t o := by cases o <;> rfl
theorem render_movSource (t : Tokens) (u : MovSource) :
    t.movSource.render u = movSourceToken t u := by cases u <;> rfl
theorem render_setDestination (t : Tokens) (d : SetDestination) :
    t.setDestination.render d = setDestinationToken t d := by cases d <;> rfl

/-- A resolver's table gives the text at the target's number. -/
theorem targetText_eq (r : Resolver) (t : Addr5) : targetText r t = target r t := by
  cases r with
  | none | fixed _ => rfl
  | map table => simp [targetText, target, Vector.get, List.getD, t.isLt]

theorem toNat_irqNumber (n : Index5) : (irqNumber n).toNat = n.toNat % 16 := by
  simp [irqNumber]

theorem relFlag_iff (n : Index5) : relFlag n = true ↔ 16 ≤ n.toNat := by
  revert n; decide

theorem irqIndexText_eq (n : Index5) : irqIndexText n = irqIndex n := by
  simp [irqIndexText, irqIndex, toNat_irqNumber, relFlag_iff]

theorem decimal_polarity (p : Bit1) :
    decimal p.toNat = if p = 1 then ascii "1" else ascii "0" := by
  revert p; decide

/-- Clear before wait, and set when neither flag is set (R191). -/
theorem irqOperationText_flags (c wt : Bool) : irqOperationText (irqOperationOf c wt) =
    if c then ascii "clear" else if wt then ascii "wait" else ascii "set" := by
  cases c <;> cases wt <;> rfl

end Sys2Proof

namespace Sys2Proof.Machine

open Sys2Proof.Claims

variable {i j : Instr} {r : Resolver} {s : State} {text : AsciiString}

/-- With ToAssemblyText in progress, running an instruction delivers its text and changes nothing else. -/
theorem exec_toAssemblyText_delivers (hc : s.call = some (.toAssemblyText j r))
    (ht : toAssemblyText s.config.tokens r i = text) : exec i s = .next (ended s (.text text)) :=
  ht ▸ exec_toAssemblyText hc

/-- Settles O26: the text delivered is that of `textJump`. -/
theorem textOfJump : Obligations.TextOfJump := fun c t _ r s hc =>
  exec_toAssemblyText_delivers hc (by
    rw [toAssemblyText, textJump, render_jumpCondition, targetText_eq])

/-- Settles O27: the text delivered is that of `textWait`. -/
theorem textOfWait : Obligations.TextOfWait := fun p u n _ _ s hc =>
  exec_toAssemblyText_delivers hc (by
    rw [toAssemblyText, textWait, decimal_polarity, render_waitSource, irqIndexText_eq])

/-- Settles O28: the text delivered is that of `textShiftIn`, which needs no bound on the count. -/
theorem textOfShiftIn : Obligations.TextOfShiftIn := fun u n _ _ s hc _ =>
  exec_toAssemblyText_delivers hc (by rw [toAssemblyText, textShiftIn, render_inSource])

/-- Settles O29: the text delivered is that of `textShiftOut`, which needs no bound on the count. -/
theorem textOfShiftOut : Obligations.TextOfShiftOut := fun d n _ _ s hc _ =>
  exec_toAssemblyText_delivers hc (by rw [toAssemblyText, textShiftOut, render_outDestination])

/-- Settles O30: the texts delivered are those of `textPush` and `textPull`. -/
theorem textOfPushAndPull : Obligations.TextOfPushAndPull := fun _ _ _ _ _ hc =>
  ⟨exec_toAssemblyText_delivers hc rfl, exec_toAssemblyText_delivers hc rfl⟩

/-- Settles O31: the text delivered is that of `textMove`, and the default tokens are those of R181. -/
theorem textOfMove : Obligations.TextOfMove := ⟨rfl, fun d o u _ _ s hc =>
  exec_toAssemblyText_delivers hc (by
    rw [toAssemblyText, textMove, render_movDestination, render_movOperation, render_movSource])⟩

/-- Settles O32: the text delivered is that of `textIrq`. -/
theorem textOfIrq : Obligations.TextOfIrq := fun c wt n _ _ s hc =>
  exec_toAssemblyText_delivers hc (by
    rw [toAssemblyText, textIrq, irqOperationText_flags, irqIndexText_eq])

/-- Settles O33: the text delivered is that of `textSet`. -/
theorem textOfSet : Obligations.TextOfSet := fun d v _ _ s hc =>
  exec_toAssemblyText_delivers hc (by rw [toAssemblyText, textSet, render_setDestination])

end Sys2Proof.Machine
end

section
/-! PROOFS. 60_exceptions.md R217 and R218: what a failing operation leaves, and what the same call presented again
gives. -/

namespace Sys2Proof.Machine

open Sys2Proof.Claims

variable {s s' : State} {c : Call} {e : Error}

/-- A step that ends with an error changes nothing but the ports (R217): a store that fits ends with `written`, and a
read finds the buffer unchanged where no writer is racing. -/
theorem step_error_eq_ended (hc : s.call = some c)
    (hr : c = .decodeFromBuffer → s.racers = [] ∨ s.buffer.size < 2) (hs : step s = .next s')
    (he : s'.result = some (.error e)) : s' = ended s (.error e) := by
  rcases step_cases hc hs with ⟨r, rfl⟩ | ⟨rfl, x, hx, rfl⟩ | ⟨_, _, _, _, _, _, rfl⟩
  · cases he; rfl
  · rcases hr rfl with hrace | hshort
    · rw [countDraw_of_no_race s hrace, settle_of_no_race s x hrace] at he ⊢
      exact congrArg (State.finish · s) (Option.some.inj he)
    · rw [readWord_of_short hshort] at hx
      cases hx
  · cases he

/-- An operation that has ended, presented again, is the operation it was but for the output ports. -/
theorem ended_withCall_eq_withResult (hc : s.call = some c) (r : Result) :
    { ended s r with call := some c } = withResult s (some r) := by
  rw [← hc]; rfl

/-- Settles O54: the state left differs from the first one in its ports only, and a step does not read the output
ports. -/
theorem aFailingOperationChangesNothingAndRepeats :
    Obligations.AFailingOperationChangesNothingAndRepeats := by
  intro s s' c e hc hr hs he
  obtain rfl : s' = ended s (.error e) := step_error_eq_ended hc hr hs he
  refine ⟨rfl, ?_⟩
  rw [ended_withCall_eq_withResult hc, step_withResult hc, hs]
  rfl

end Sys2Proof.Machine
end

section
/-! PROOFS. 70_reset_and_hazards.md R249: every operation comes to an end, and ends with a result. -/

namespace Sys2Proof.Machine

variable {s : State} {c : Call} {w : Word}

/-- A store ends with a result, on a short buffer as on a long one. -/
theorem storeWord_eq_finish : ∃ (t : State) (r : Result), storeWord w s = .next (t.finish r) := by
  rcases Nat.lt_or_ge s.buffer.size 2 with hshort | hlong
  · exact ⟨_, _, storeWord_short hshort⟩
  · obtain ⟨_, _, _, _, hstore⟩ := storeWord_long hlong
    exact ⟨_, _, hstore⟩

/-- A step with a call ends it: each of the six operations of 10_state.md R32 has a result for every input. -/
theorem step_eq_finish (hc : s.call = some c) :
    ∃ (t : State) (r : Result), step s = .next (t.finish r) := by
  cases c with
  | construct o d => exact ⟨_, _, step_construct hc⟩
  | encode i => exact ⟨_, _, step_encode hc⟩
  | decode x => exact ⟨_, _, step_decode hc⟩
  | toAssemblyText i r => exact ⟨_, _, step_toAssemblyText hc⟩
  | encodeToBuffer i =>
    rw [step_encodeToBuffer hc]
    exact storeWord_eq_finish
  | decodeFromBuffer =>
    rcases Nat.lt_or_ge s.buffer.size 2 with hshort | hlong
    · exact ⟨_, _, step_decodeFromBuffer_short hc hshort⟩
    · obtain ⟨_, _, hread⟩ := step_decodeFromBuffer_long hc hlong
      exact ⟨_, _, hread⟩

/-- Settles O52: the step ends with a finished state, whose call is over and whose result is delivered. -/
theorem everyOperationEndsWithAResult : Obligations.EveryOperationEndsWithAResult := by
  intro s c hc
  obtain ⟨t, r, hstep⟩ := step_eq_finish hc
  exact ⟨t.finish r, r, hstep, finish_result t r, finish_call t r⟩

end Sys2Proof.Machine
end

section
/-! PROOFS. 30_encoding.md R84 and R88, 42_decode.md R153 and R154: which words decode, which field the others fail
for, and how many decode. -/

namespace Sys2Proof

open Sys2Proof.Claims

/-! ### An answer and the unassigned field that it fails for -/

/-- The answer `x` is `UnrecognizedValue` of the unassigned field `bad`, and a success when there is none. -/
def AnswersFor {α : Type} (x : Except Error α) (bad : Option (Field × Nat)) : Prop :=
  (∀ f p, bad = some (f, p) → x = unrecognizedValue f p) ∧ (bad = none → ∃ a, x = .ok a)

section

variable {α β : Type} {x : Except Error α} {bad : Option (Field × Nat)} {c : Prop} [Decidable c]

theorem answersFor_ok (a : α) : AnswersFor (.ok a) none :=
  ⟨fun _ _ h => (nomatch h), fun _ => ⟨a, rfl⟩⟩

theorem answersFor_unrecognizedValue (f : Field) (p : Nat) :
    AnswersFor (unrecognizedValue f p : Except Error α) (some (f, p)) :=
  ⟨fun _ _ h => by cases h; rfl, fun h => (nomatch h)⟩

theorem AnswersFor.map (hx : AnswersFor x bad) (make : α → β) : AnswersFor (x.map make) bad := by
  obtain ⟨herr, hok⟩ := hx
  refine ⟨fun f p h => ?_, fun h => ?_⟩
  · rw [herr f p h]; rfl
  · obtain ⟨a, rfl⟩ := hok h
    exact ⟨make a, rfl⟩

/-- Of the fields that are looked up in turn the first unassigned one is named. -/
theorem AnswersFor.bind {named : Field × Nat} {k : α → Except Error β}
    (hx : AnswersFor x (if c then some named else none)) (hk : ∀ a, AnswersFor (k a) bad) :
    AnswersFor (x >>= k) (if c then some named else bad) := by
  by_cases hc : c
  · rw [if_pos hc] at hx ⊢
    rw [hx.1 _ _ rfl]
    exact answersFor_unrecognizedValue _ _
  · rw [if_neg hc] at hx ⊢
    obtain ⟨a, rfl⟩ := hx.2 rfl
    exact hk a

/-- A lookup answers for its field, where `c` says that no enumerator has the pattern. -/
theorem answersFor_lookup {n u v : Nat} {all : List α} {pattern : α → BitVec n} {number : α → Nat}
    {field : Field} {p : BitVec n} (hn : ∀ e, (pattern e).toNat = number e) (hp : p.toNat = v)
    (hc : c ↔ ∀ e ∈ all, number e ≠ v) (hu : c → v = u) :
    AnswersFor (lookup all pattern field p) (if c then some (field, u) else none) := by
  by_cases h : c
  · rw [if_pos h, lookup_of_unassigned hn hp (hc.1 h), hu h]
    exact answersFor_unrecognizedValue field u
  · have hassigned : ∃ e ∈ all, number e = v := by simpa [hc] using h
    obtain ⟨e, -, he⟩ := lookup_of_assigned (field := field) hn hp hassigned
    rw [if_neg h, he]
    exact answersFor_ok e

/-- A lookup in an enumeration that has every pattern succeeds. -/
theorem answersFor_lookup_total {n v : Nat} {all : List α} {pattern : α → BitVec n}
    {number : α → Nat} {field : Field} {p : BitVec n} (hn : ∀ e, (pattern e).toNat = number e)
    (hp : p.toNat = v) (hassigned : ∃ e ∈ all, number e = v) :
    AnswersFor (lookup all pattern field p) none := by
  obtain ⟨e, -, he⟩ := lookup_of_assigned (field := field) hn hp hassigned
  exact he ▸ answersFor_ok e

end

/-! ### Each tag's unpacker answers for the fields that R84 lists -/

section Tags

variable {config : Config} {w : Word}

theorem answersFor_unpackJump : AnswersFor (unpackJump w) none := by
  have hall : ∀ v < 8, ∃ c ∈ JumpCondition.all, conditionNumber c = v := by decide
  rw [unpackJump_eq]
  exact (answersFor_lookup_total toNat_pattern_jumpCondition (toNat_field75 w)
    (hall _ (slice_lt w 5 3))).map _

theorem answersFor_unpackWait :
    AnswersFor (unpackWait w) (if slice w 5 2 = 3 then some (.waitSource, 3) else none) := by
  have hall : ∀ v < 4, v = 3 ↔ ∀ u ∈ WaitSource.all, waitSourceNumber u ≠ v := by decide
  rw [unpackWait_eq]
  exact (answersFor_lookup toNat_pattern_waitSource (toNat_extractLsb'_eq_slice w 5 2)
    (hall _ (slice_lt w 5 2)) id).map _

theorem answersFor_unpackShiftIn : AnswersFor (unpackShiftIn config w)
    (if slice w 5 3 = 4 ∨ slice w 5 3 = 5 then some (.shiftInSource, slice w 5 3) else none) := by
  have hall : ∀ v < 8, v = 4 ∨ v = 5 ↔ ∀ u ∈ InSource.all, inSourceNumber u ≠ v := by decide
  rw [unpackShiftIn_eq]
  exact (answersFor_lookup toNat_pattern_inSource (toNat_field75 w)
    (hall _ (slice_lt w 5 3)) fun _ => rfl).map _

theorem answersFor_unpackShiftOut : AnswersFor (unpackShiftOut config w) none := by
  have hall : ∀ v < 8, ∃ d ∈ OutDestination.all, outDestinationNumber d = v := by decide
  rw [unpackShiftOut_eq]
  exact (answersFor_lookup_total toNat_pattern_outDestination (toNat_field75 w)
    (hall _ (slice_lt w 5 3))).map _

/-- The order of the lookups is destination, operation, source (42_decode.md R150). -/
theorem answersFor_unpackMove : AnswersFor (unpackMove w)
    (if slice w 5 3 = 3 then some (.moveDestination, 3)
     else if slice w 3 2 = 3 then some (.moveOperation, 3)
     else if slice w 0 3 = 4 then some (.moveSource, 4) else none) := by
  have hd : ∀ v < 8, v = 3 ↔ ∀ d ∈ MovDestination.all, movDestinationNumber d ≠ v := by decide
  have ho : ∀ v < 4, v = 3 ↔ ∀ o ∈ MovOperation.all, movOperationNumber o ≠ v := by decide
  have hu : ∀ v < 8, v = 4 ↔ ∀ u ∈ MovSource.all, movSourceNumber u ≠ v := by decide
  rw [unpackMove_eq]
  refine .bind (answersFor_lookup toNat_pattern_movDestination (toNat_field75 w)
    (hd _ (slice_lt w 5 3)) id) fun d => ?_
  refine .bind (answersFor_lookup toNat_pattern_movOperation (toNat_extractLsb'_eq_slice w 3 2)
    (ho _ (slice_lt w 3 2)) id) fun o => ?_
  exact .bind (answersFor_lookup toNat_pattern_movSource (toNat_extractLsb'_eq_slice w 0 3)
    (hu _ (slice_lt w 0 3)) id) fun u => answersFor_ok (Instr.move d o u)

theorem answersFor_unpackSet : AnswersFor (unpackSet w)
    (if slice w 5 3 = 3 ∨ slice w 5 3 = 5 ∨ slice w 5 3 = 6 ∨ slice w 5 3 = 7 then
      some (.setDestination, slice w 5 3) else none) := by
  have hall : ∀ v < 8, v = 3 ∨ v = 5 ∨ v = 6 ∨ v = 7 ↔
      ∀ d ∈ SetDestination.all, setDestinationNumber d ≠ v := by decide
  rw [unpackSet_eq]
  exact (answersFor_lookup toNat_pattern_setDestination (toNat_field75 w)
    (hall _ (slice_lt w 5 3)) fun _ => rfl).map _

/-! ### The unused fields of push, pull and irq (R85) -/

/-- The word's variant has no unused field in the operand byte that is set, or the policy does not ask. -/
def OperandByteClear (config : Config) (w : Word) : Prop :=
  config.unusedBits = .reject →
    (slice w 13 3 = 4 → slice w 0 5 = 0) ∧ (slice w 13 3 = 6 → slice w 7 1 = 0)

/-- An unused field that is 0, or that the policy does not ask for, passes the check (R153). -/
theorem answersFor_afterUnusedBits {α : Type} {field : Field} {v : Nat} (a : α)
    (h : config.unusedBits = .reject → v = 0) :
    AnswersFor (afterUnusedBits config field v (.ok a)) none := by
  cases hpolicy : config.unusedBits with
  | ignore => rw [afterUnusedBits_of_ignore hpolicy]; exact answersFor_ok a
  | reject => rw [h hpolicy, afterUnusedBits_zero]; exact answersFor_ok a

theorem answersFor_dispatch_fifo (h : config.unusedBits = .reject → slice w 0 5 = 0) :
    AnswersFor (dispatch config 4 w) none := by
  rw [dispatch_fifo, unpackPull_eq, unpackPush_eq, toNat_field40]
  split
  · exact answersFor_afterUnusedBits _ h
  · exact answersFor_afterUnusedBits _ h

theorem answersFor_unpackIrq (h : config.unusedBits = .reject → slice w 7 1 = 0) :
    AnswersFor (unpackIrq config w) none := by
  rw [unpackIrq_eq, toNat_extractLsb'_eq_slice]
  exact answersFor_afterUnusedBits _ h

/-- The dispatch answers for the unassigned field of the word, when no unused field of the operand byte is in the
way. -/
theorem answersFor_dispatch (h : OperandByteClear config w) :
    AnswersFor (dispatch config (slice w 13 3) w) (unassigned w) := by
  have hlt : slice w 13 3 < 8 := slice_lt w 13 3
  match htag : slice w 13 3 with
  | 0 => simpa [unassigned, dispatch, htag] using answersFor_unpackJump
  | 1 => simpa [unassigned, dispatch, htag] using answersFor_unpackWait
  | 2 => simpa [unassigned, dispatch, htag] using answersFor_unpackShiftIn
  | 3 => simpa [unassigned, dispatch, htag] using answersFor_unpackShiftOut
  | 4 => simpa [unassigned, htag] using answersFor_dispatch_fifo fun hr => (h hr).1 htag
  | 5 => simpa [unassigned, dispatch, htag] using answersFor_unpackMove
  | 6 => simpa [unassigned, dispatch, htag] using answersFor_unpackIrq fun hr => (h hr).2 htag
  | 7 => simpa [unassigned, dispatch, htag] using answersFor_unpackSet
  | n + 8 => omega

/-- The word fails for no unused bit: the policy does not ask, or bits 12:8 and the unused field of the operand byte
are 0 (R85, R153). -/
def UnusedClear (config : Config) (w : Word) : Prop :=
  config.unusedBits = .reject → slice w 8 5 = 0 ∧ (slice w 13 3 = 4 → slice w 0 5 = 0) ∧
    (slice w 13 3 = 6 → slice w 7 1 = 0)

theorem unusedClear_of_ignore (hi : config.unusedBits = .ignore) : UnusedClear config w :=
  fun hr => nomatch hi.symm.trans hr

theorem UnusedClear.sideSet (h : UnusedClear config w) :
    config.unusedBits = .ignore ∨ slice w 8 5 = 0 := by
  cases hpolicy : config.unusedBits with
  | ignore => exact .inl rfl
  | reject => exact .inr (h hpolicy).1

/-- With no non-zero bits 12:8 that the policy asks for, the decoder is the unpacker of the tag. -/
theorem decode_eq_dispatch (h : config.unusedBits = .ignore ∨ slice w 8 5 = 0) :
    decode config w = dispatch config (slice w 13 3) w := by
  rcases h with hi | h8
  · rw [decode_of_ignore hi, toNat_tagOf]
  · exact decode_of_slice_sideSet config h8

/-- A word that decodes fails for no unused bit: each of the checks of R153 would have refused it. -/
theorem unusedClear_of_decode {i : Instr} (h : decode config w = .ok i) : UnusedClear config w := by
  intro hr
  obtain ⟨-, hreject⟩ := unusedBitsPolicyOfTheDecoder config
  obtain ⟨hside, hpush, hpull, hirq⟩ := hreject hr w
  have h8 : slice w 8 5 = 0 := by
    by_contra h8
    cases h.symm.trans (hside h8)
  refine ⟨h8, fun htag => ?_, fun htag => ?_⟩
  · by_contra h0
    rcases Nat.lt_or_ge (slice w 7 1) 1 with h7 | h7
    · cases h.symm.trans (hpush h8 htag (Nat.lt_one_iff.1 h7) h0)
    · cases h.symm.trans (hpull h8 htag (le_antisymm (Nat.lt_succ_iff.1 (slice_lt w 7 1)) h7) h0)
  · by_contra h7
    cases h.symm.trans (hirq h8 htag h7)

/-- Push, pull and irq hold no enumeration, so a word with an unassigned pattern has no unused operand bits. -/
theorem operandByteClear_of_unassigned {f : Field} {p : Nat} (h : unassigned w = some (f, p)) :
    OperandByteClear config w := by
  refine fun _ => ⟨fun htag => ?_, fun htag => ?_⟩
  · simp [unassigned, htag] at h
  · simp [unassigned, htag] at h

/-- An unassigned pattern is what the decode fails for, unless bits 12:8 come before (R154). -/
theorem decode_of_unassigned {f : Field} {p : Nat} (h8 : config.unusedBits = .ignore ∨ slice w 8 5 = 0)
    (h : unassigned w = some (f, p)) : decode config w = unrecognizedValue f p := by
  rw [decode_eq_dispatch h8]
  exact (answersFor_dispatch (operandByteClear_of_unassigned h)).1 f p h

theorem decode_isOk_iff :
    (∃ i, decode config w = .ok i) ↔ unassigned w = none ∧ UnusedClear config w := by
  constructor
  · rintro ⟨i, hi⟩
    have hclear := unusedClear_of_decode hi
    refine ⟨Option.eq_none_iff_forall_ne_some.2 fun ⟨f, p⟩ hbad => ?_, hclear⟩
    cases hi.symm.trans (decode_of_unassigned hclear.sideSet hbad)
  · rintro ⟨hnone, hclear⟩
    rw [decode_eq_dispatch hclear.sideSet]
    exact (answersFor_dispatch fun hr => (hclear hr).2).2 hnone

end Tags

/-- Settles O45: the decoder is the unpacker of the tag, which answers for the unassigned field, after the checks of
the unused bits. -/
theorem whichWordsDecode : Obligations.WhichWordsDecode := by
  refine fun config w => ⟨fun h8 f p h => decode_of_unassigned h8 h, fun hr h8 => ?_, decode_isOk_iff⟩
  obtain ⟨hside, -⟩ := (unusedBitsPolicyOfTheDecoder config).2 hr w
  exact hside h8

/-! ### How many words decode (R88) -/

section Counts

variable {config : Config} {tag d b : Nat}

theorem toNat_wordOf (htag : tag < 8) (hd : d < 32) (hb : b < 256) :
    (wordOf tag d b).toNat = tag * 8192 + d * 256 + b :=
  Nat.mod_eq_of_lt (by omega)

theorem slice_wordOf_tag (htag : tag < 8) (hd : d < 32) (hb : b < 256) :
    slice (wordOf tag d b) 13 3 = tag := by
  rw [slice, toNat_wordOf htag hd hb]; omega

theorem slice_wordOf_sideSet (htag : tag < 8) (hd : d < 32) (hb : b < 256) :
    slice (wordOf tag d b) 8 5 = d := by
  rw [slice, toNat_wordOf htag hd hb]; omega

/-- A field of the operand byte does not depend on the bits above it. -/
theorem slice_wordOf_operandByte (htag : tag < 8) (hd : d < 32) (hb : b < 256) {lo n : Nat}
    (h : lo + n ≤ 8) : slice (wordOf tag d b) lo n = b / 2 ^ lo % 2 ^ n := by
  obtain ⟨k, hk⟩ : ∃ k, 2 ^ lo * 2 ^ n * k = 256 :=
    ⟨2 ^ (8 - (lo + n)), by rw [← Nat.pow_add, ← Nat.pow_add, Nat.add_sub_cancel' h]⟩
  have hsum : tag * 8192 + d * 256 + b = b + 2 ^ lo * (2 ^ n * (k * (tag * 32 + d))) := by
    rw [← Nat.mul_assoc, ← Nat.mul_assoc, hk]; ring
  rw [slice, toNat_wordOf htag hd hb, hsum, Nat.add_mul_div_left _ _ (Nat.two_pow_pos lo),
    Nat.add_mul_mod_self_left]

/-- No field with an unassigned pattern is in bits 12:8. -/
theorem unassigned_wordOf (htag : tag < 8) (hd : d < 32) (hb : b < 256) :
    unassigned (wordOf tag d b) = unassigned (wordOf tag 0 b) := by
  have hzero : 0 < 32 := by decide
  simp only [unassigned, slice_wordOf_tag htag hd hb, slice_wordOf_tag htag hzero hb,
    slice_wordOf_operandByte htag hd hb, slice_wordOf_operandByte htag hzero hb, Nat.reduceAdd,
    Nat.reduceLeDiff]

theorem toBool_decode_iff {w : Word} :
    (decode config w).toBool = true ↔ unassigned w = none ∧ UnusedClear config w := by
  rw [← decode_isOk_iff]
  cases decode config w with
  | ok i => exact iff_of_true rfl ⟨i, rfl⟩
  | error e => exact iff_of_false Bool.false_ne_true fun ⟨_, h⟩ => (nomatch h)

theorem decodableBytes_of_ignore (hi : config.unusedBits = .ignore) (htag : tag < 8) (hd : d < 32) :
    decodableBytes config tag d = decodableBytes Config.default tag 0 := by
  refine congrArg List.length (List.filter_congr fun b hb => Bool.eq_iff_iff.2 ?_)
  rw [toBool_decode_iff, toBool_decode_iff, unassigned_wordOf htag hd (List.mem_range.1 hb)]
  exact and_congr_right fun _ => iff_of_true (unusedClear_of_ignore hi) (unusedClear_of_ignore rfl)

theorem decodableBytes_congr {config' : Config} (h : config.unusedBits = config'.unusedBits) (tag d : Nat) :
    decodableBytes config tag d = decodableBytes config' tag d := by
  simp only [decodableBytes, decode_congr h]

/-- Under `Reject` no word with non-zero bits 12:8 decodes. -/
theorem decodableBytes_of_sideSet (hr : config.unusedBits = .reject) (htag : tag < 8) (hd : d < 32)
    (hne : d ≠ 0) : decodableBytes config tag d = 0 := by
  refine List.length_eq_zero_iff.2 (List.filter_eq_nil_iff.2 fun b hb hok => hne ?_)
  obtain ⟨-, hclear⟩ := toBool_decode_iff.1 hok
  rw [← slice_wordOf_sideSet htag hd (List.mem_range.1 hb)]
  exact (hclear hr).1

/-- The row of R88 for `Ignore`. -/
theorem decodableBytes_default_row :
    (List.range 8).map (fun tag => decodableBytes Config.default tag 0) =
      [256, 192, 192, 256, 256, 147, 256, 128] := by
  decide +kernel

/-- The default configuration but for its `UNUSED_BITS_POLICY`. -/
def rejectingConfig : Config := { Config.default with unusedBits := .reject }

/-- The row of R88 for `Reject`. -/
theorem decodableBytes_rejecting_row :
    (List.range 8).map (fun tag => decodableBytes rejectingConfig tag 0) =
      [256, 192, 192, 256, 8, 147, 128, 128] := by
  decide +kernel

end Counts

/-- Settles O46: under `Ignore` each of the 32 values of bits 12:8 has the same row, under `Reject` only 0 has one;
the two rows are counted by evaluation. -/
theorem countsOfDecodableWords : Obligations.CountsOfDecodableWords := by
  refine fun config => ⟨fun hi => ?_, fun hr => ?_⟩
  · have hcell : ∀ tag ∈ List.range 8, ∀ d < 32,
        decodableBytes config tag d = decodableBytes Config.default tag 0 :=
      fun tag htag d hd => decodableBytes_of_ignore hi (List.mem_range.1 htag) hd
    have hsum : ∀ tag ∈ List.range 8, ((List.range 32).map (fun d => decodableBytes config tag d)).sum =
        32 * decodableBytes Config.default tag 0 := by
      intro tag htag
      rw [List.map_congr_left fun d hd => hcell tag htag d (List.mem_range.1 hd), List.map_const',
        List.sum_const_nat, List.length_range]
    refine ⟨fun d hd => ?_, ?_⟩
    · rw [List.map_congr_left fun tag htag => hcell tag htag d hd, decodableBytes_default_row]
    · rw [List.map_congr_left hsum, List.sum_map_mul_left, decodableBytes_default_row]
      rfl
  · have hrow : (List.range 8).map (fun tag => decodableBytes config tag 0) =
        [256, 192, 192, 256, 8, 147, 128, 128] := by
      rw [← decodableBytes_rejecting_row]
      exact List.map_congr_left fun tag _ => decodableBytes_congr hr tag 0
    have hsum : ∀ tag ∈ List.range 8, ((List.range 32).map (fun d => decodableBytes config tag d)).sum =
        decodableBytes config tag 0 := by
      intro tag htag
      have hzero : ∀ d ∈ List.range 31, decodableBytes config tag (d + 1) = 0 := fun d hd =>
        decodableBytes_of_sideSet hr (List.mem_range.1 htag) (Nat.succ_lt_succ (List.mem_range.1 hd))
          d.succ_ne_zero
      rw [List.sum_range_succ', List.map_congr_left hzero, List.map_const', List.sum_const_nat,
        Nat.mul_zero, Nat.add_zero]
    refine ⟨hrow, ?_⟩
    rw [List.map_congr_left hsum, hrow]
    rfl

end Sys2Proof
end

section
/-! PROOFS. 42_decode.md R155 and R157, 30_encoding.md R89, 10_state.md R33: what a word that decodes has in common
with its instruction. -/

namespace Sys2Proof

open Sys2Proof.Claims

variable {config : Config} {w : Word} {i : Instr}

/-! ### From a word to its instruction -/

/-- The instruction that the fields of a word stand for (42_decode.md R144 to R152), by the tag and, for push and pull,
bit 7. It does not say that the unused bits are 0. -/
inductive StandsFor (w : Word) : Instr → Prop
  | jump {c : JumpCondition} (htag : tagOf w = 0) (hc : c.pattern = field75 w) :
    StandsFor w (.jump c (field40 w))
  | wait {u : WaitSource} (htag : tagOf w = 1) (hu : u.pattern = w.extractLsb' 5 2) :
    StandsFor w (.wait (w.extractLsb' 7 1) u (field40 w))
  | shiftIn {u : InSource} (htag : tagOf w = 2) (hu : u.pattern = field75 w) :
    StandsFor w (.shiftIn u (bitCountOf (field40 w)))
  | shiftOut {d : OutDestination} (htag : tagOf w = 3) (hd : d.pattern = field75 w) :
    StandsFor w (.shiftOut d (bitCountOf (field40 w)))
  | push (htag : tagOf w = 4) (hfifo : w.getLsbD 7 = false) :
    StandsFor w (.push (w.getLsbD 6) (w.getLsbD 5))
  | pull (htag : tagOf w = 4) (hfifo : w.getLsbD 7 = true) :
    StandsFor w (.pull (w.getLsbD 6) (w.getLsbD 5))
  | move {d : MovDestination} {o : MovOperation} {u : MovSource} (htag : tagOf w = 5)
    (hd : d.pattern = field75 w) (ho : o.pattern = w.extractLsb' 3 2)
    (hu : u.pattern = w.extractLsb' 0 3) : StandsFor w (.move d o u)
  | irq (htag : tagOf w = 6) : StandsFor w (.irq (w.getLsbD 6) (w.getLsbD 5) (field40 w))
  | set {d : SetDestination} (htag : tagOf w = 7) (hd : d.pattern = field75 w) :
    StandsFor w (.set d (field40 w))

theorem lookup_map_eq_ok {ε : Type} {n : Nat} {all : List ε} {pattern : ε → BitVec n} {field : Field}
    {p : BitVec n} {make : ε → Instr} (h : (lookup all pattern field p).map make = .ok i) :
    ∃ e, pattern e = p ∧ make e = i := by
  cases hl : lookup all pattern field p with
  | error x => rw [hl] at h; cases h
  | ok e =>
    rw [hl] at h
    exact ⟨e, (lookup_eq_ok hl).1, Except.ok.inj h⟩

theorem bind_lookup_eq_ok {ε : Type} {n : Nat} {all : List ε} {pattern : ε → BitVec n} {field : Field}
    {p : BitVec n} {k : ε → Except Error Instr} (h : lookup all pattern field p >>= k = .ok i) :
    ∃ e, pattern e = p ∧ k e = .ok i := by
  cases hl : lookup all pattern field p with
  | error x => rw [hl] at h; cases h
  | ok e =>
    rw [hl] at h
    exact ⟨e, (lookup_eq_ok hl).1, h⟩

theorem afterUnusedBits_eq_ok {α : Type} {field : Field} {v : Nat} {k : Except Error α} {a : α}
    (h : afterUnusedBits config field v k = .ok a) : k = .ok a := by
  unfold afterUnusedBits at h
  split at h
  · exact h
  · split at h
    · cases h
    · exact h

theorem dispatch_standsFor (h : dispatch config (tagOf w).toNat w = .ok i) : StandsFor w i := by
  have hlt : (tagOf w).toNat < 8 := (tagOf w).isLt
  match htag : (tagOf w).toNat with
  | 0 =>
    rw [htag] at h
    obtain ⟨c, hc, rfl⟩ := lookup_map_eq_ok ((unpackJump_eq w).symm.trans h)
    exact .jump (BitVec.eq_of_toNat_eq htag) hc
  | 1 =>
    rw [htag] at h
    obtain ⟨u, hu, rfl⟩ := lookup_map_eq_ok ((unpackWait_eq w).symm.trans h)
    exact .wait (BitVec.eq_of_toNat_eq htag) hu
  | 2 =>
    rw [htag] at h
    obtain ⟨u, hu, rfl⟩ := lookup_map_eq_ok ((unpackShiftIn_eq config w).symm.trans h)
    exact .shiftIn (BitVec.eq_of_toNat_eq htag) hu
  | 3 =>
    rw [htag] at h
    obtain ⟨d, hd, rfl⟩ := lookup_map_eq_ok ((unpackShiftOut_eq config w).symm.trans h)
    exact .shiftOut (BitVec.eq_of_toNat_eq htag) hd
  | 4 =>
    rw [htag, dispatch_fifo, unpackPull_eq, unpackPush_eq] at h
    split at h
    · next h7 =>
      cases afterUnusedBits_eq_ok h
      exact .pull (BitVec.eq_of_toNat_eq htag) (by rw [getLsbD_eq_slice, h7]; rfl)
    · next h7 =>
      cases afterUnusedBits_eq_ok h
      exact .push (BitVec.eq_of_toNat_eq htag) (by rw [getLsbD_eq_slice]; exact beq_false_of_ne h7)
  | 5 =>
    rw [htag] at h
    obtain ⟨d, hd, h⟩ := bind_lookup_eq_ok ((unpackMove_eq w).symm.trans h)
    obtain ⟨o, ho, h⟩ := bind_lookup_eq_ok h
    obtain ⟨u, hu, h⟩ := bind_lookup_eq_ok h
    cases h
    exact .move (BitVec.eq_of_toNat_eq htag) hd ho hu
  | 6 =>
    rw [htag] at h
    cases afterUnusedBits_eq_ok ((unpackIrq_eq config w).symm.trans h)
    exact .irq (BitVec.eq_of_toNat_eq htag)
  | 7 =>
    rw [htag] at h
    obtain ⟨d, hd, rfl⟩ := lookup_map_eq_ok ((unpackSet_eq w).symm.trans h)
    exact .set (BitVec.eq_of_toNat_eq htag) hd
  | n + 8 => omega

/-- A word decodes to the instruction that its fields stand for. -/
theorem standsFor_of_decode (h : decode config w = .ok i) : StandsFor w i := by
  rw [decode_eq_dispatch (unusedClear_of_decode h).sideSet, ← toNat_tagOf] at h
  exact dispatch_standsFor h

/-- What a word stands for is well-formed: a count field stands for 1 to 32 (R155). -/
theorem StandsFor.wellFormed (h : StandsFor w i) : i.wellFormed = true := by
  cases h with
  | shiftIn | shiftOut => exact bne_iff_ne.2 (bitCountOf_ne_zero _)
  | _ => rfl

/-- The variant is the one that the tag and, for push and pull, bit 7 dispatch to (R158). -/
theorem StandsFor.variantIndex (h : StandsFor w i) : i.variantIndex = dispatchIndex w := by
  cases h with
  | push htag h7 | pull htag h7 =>
    simp [dispatchIndex, htag, h7, Instr.variantIndex, -BitVec.getLsbD_eq_getElem]
  | jump htag | wait htag | shiftIn htag | shiftOut htag | move htag | irq htag | set htag =>
    simp [dispatchIndex, htag, Instr.variantIndex]

/-! ### A word's fields, put back where they stood -/

/-- A field of a word, positioned where it was, is the word with every other bit cleared. -/
theorem positioned_extractLsb' (w : Word) (lo n : Nat) :
    positioned lo (w.extractLsb' lo n) = w &&& positioned lo (BitVec.allOnes n) := by
  refine BitVec.eq_of_getLsbD_eq fun k hk => ?_
  by_cases hlo : k < lo
  · simp [positioned, hlo]
  · have hsum : lo + (k - lo) = k := by omega
    simp [positioned, hsum, hk, hlo, Bool.and_comm]

theorem positionedFlag_getLsbD (w : Word) (lo : Nat) :
    positionedFlag lo (w.getLsbD lo) = w &&& positionedFlag lo true := by
  have hbit : BitVec.ofBool (w.getLsbD lo) = w.extractLsb' lo 1 := by
    refine BitVec.eq_of_getLsbD_eq fun k hk => ?_
    obtain rfl : k = 0 := by omega
    simp
  rw [positionedFlag, hbit, positioned_extractLsb']
  rfl

/-- The tag of a word, positioned in its bits 15:13. -/
theorem positioned_tagOf {t : BitVec 3} (h : tagOf w = t) : positioned 13 t = w &&& 0xE000#16 :=
  h ▸ positioned_extractLsb' w 13 3

section

variable {x m : Word} (hx : x = w &&& m)
include hx

theorem or_positioned_field (lo n : Nat) : x ||| positioned lo (w.extractLsb' lo n) =
    w &&& (m ||| positioned lo (BitVec.allOnes n)) := by
  rw [hx, positioned_extractLsb', BitVec.and_or_distrib_left]

theorem or_positioned_bit (lo : Nat) : x ||| positionedFlag lo (w.getLsbD lo) =
    w &&& (m ||| positionedFlag lo true) := by
  rw [hx, positionedFlag_getLsbD, BitVec.and_or_distrib_left]

end

/-- Encoding an instruction that a word stands for puts the word's fields back: the packer positions the tag, then each
field, where the unpacker found them. -/
theorem StandsFor.encode_eq (h : StandsFor w i) : encode i = w &&& usedBits i := by
  cases h with
  | jump htag hc =>
    rw [encode, packJump, hc]
    exact or_positioned_field (or_positioned_field (positioned_tagOf htag) 5 3) 0 5
  | wait htag hu =>
    rw [encode, packWait, hu]
    exact or_positioned_field (or_positioned_field (or_positioned_field (positioned_tagOf htag) 7 1) 5 2) 0 5
  | shiftIn htag hu =>
    rw [encode, packShiftIn, hu, fieldOfBitCount_bitCountOf]
    exact or_positioned_field (or_positioned_field (positioned_tagOf htag) 5 3) 0 5
  | shiftOut htag hd =>
    rw [encode, packShiftOut, hd, fieldOfBitCount_bitCountOf]
    exact or_positioned_field (or_positioned_field (positioned_tagOf htag) 5 3) 0 5
  | push htag hfifo =>
    have h7 := or_positioned_bit (positioned_tagOf htag) 7
    rw [hfifo] at h7
    exact or_positioned_bit (or_positioned_bit h7 6) 5
  | pull htag hfifo =>
    have h7 := or_positioned_bit (positioned_tagOf htag) 7
    rw [hfifo] at h7
    exact or_positioned_bit (or_positioned_bit h7 6) 5
  | move htag hd ho hu =>
    rw [encode, packMove, hd, ho, hu]
    exact or_positioned_field (or_positioned_field (or_positioned_field (positioned_tagOf htag) 5 3) 3 2) 0 3
  | irq htag =>
    exact or_positioned_field (or_positioned_bit (or_positioned_bit (positioned_tagOf htag) 6) 5) 0 5
  | set htag hd =>
    rw [encode, packSet, hd]
    exact or_positioned_field (or_positioned_field (positioned_tagOf htag) 5 3) 0 5

/-! ### The unused bits of a word (R157) -/

theorem and_eq_self_iff (w m : Word) : w &&& m = w ↔ w &&& ~~~m = 0 := by
  have hsplit : (w &&& m) ||| (w &&& ~~~m) = w := by
    rw [← BitVec.and_or_distrib_left, BitVec.or_not_self, BitVec.and_allOnes]
  constructor
  · intro h
    rw [← h, BitVec.and_assoc, BitVec.and_not_self]
    exact BitVec.and_zero
  · intro h
    rw [h] at hsplit
    exact BitVec.or_zero.symm.trans hsplit

/-- A field that is 0 may be put back beside the others. -/
theorem eq_and_or_of_slice_eq_zero {x m : Word} (hx : x = w &&& m) {lo n : Nat} (h0 : slice w lo n = 0) :
    x = w &&& (m ||| positioned lo (BitVec.allOnes n)) := by
  have hfield : w.extractLsb' lo n = 0 :=
    BitVec.eq_of_toNat_eq ((toNat_extractLsb'_eq_slice w lo n).trans h0)
  have hzero : positioned lo (0 : BitVec n) = 0#16 := by simp [positioned]
  rw [← or_positioned_field hx lo n, hfield, hzero, BitVec.or_zero]

theorem and_fullMask (w : Word) : w &&& 0xFFFF#16 = w := by
  rw [show 0xFFFF#16 = BitVec.allOnes 16 by decide, BitVec.and_allOnes]

/-- Under `Reject` the used bits and the unused ones, which are 0, make up the whole word. -/
theorem StandsFor.encode_eq_self (h : StandsFor w i) (hr : config.unusedBits = .reject)
    (hclear : UnusedClear config w) : encode i = w := by
  obtain ⟨hside, hfifo, hirq⟩ := hclear hr
  have hused := eq_and_or_of_slice_eq_zero h.encode_eq hside
  rw [← toNat_tagOf] at hfifo hirq
  cases h with
  | push htag | pull htag =>
    rw [usedBits] at hused
    exact (eq_and_or_of_slice_eq_zero hused (hfifo (by rw [htag]; rfl))).trans (and_fullMask w)
  | irq htag =>
    rw [usedBits] at hused
    exact (eq_and_or_of_slice_eq_zero hused (hirq (by rw [htag]; rfl))).trans (and_fullMask w)
  | _ =>
    rw [usedBits] at hused
    exact hused.trans (and_fullMask w)

/-- Under `Ignore` a word that agrees on the used bits decodes to the same instruction. -/
theorem StandsFor.decode_congr (h : StandsFor w i) (hi : config.unusedBits = .ignore) {v : Word}
    (hv : v &&& usedBits i = w &&& usedBits i) : decode config v = decode config w := by
  obtain ⟨hbyte, hfifo, hirq⟩ := (unusedBitsPolicyOfTheDecoder config).1 hi v w
  cases h with
  | push htag | pull htag => exact hfifo (by rw [← toNat_tagOf, htag]; rfl) hv
  | irq htag => exact hirq (by rw [← toNat_tagOf, htag]; rfl) hv
  | _ => exact hbyte hv

/-- Settles O42: the word stands for its instruction, whose encoding puts the word's fields back. -/
theorem encodeOfDecodeClearsTheUnusedBits : Obligations.EncodeOfDecodeClearsTheUnusedBits := by
  intro config w i hok
  have h : StandsFor w i := standsFor_of_decode hok
  have hiff : encode i = w ↔ w &&& ~~~usedBits i = 0 := by rw [h.encode_eq, and_eq_self_iff]
  refine ⟨h.wellFormed, h.encode_eq, hiff, fun hr => ?_, fun hi v hv => ?_⟩
  · exact h.encode_eq_self hr (unusedClear_of_decode hok)
  · rw [h.decode_congr hi (hv.trans h.encode_eq), hok]

/-! ### The opcode table (30_encoding.md R89) -/

/-- The word of a tag and a bit 7, its other bits 0: all that the masks of the table let through. -/
def selectorWord (tag : BitVec 3) (fifo : Bool) : Word := positioned 13 tag ||| positionedFlag 7 fifo

theorem and_selector (w : Word) : w &&& 0xE080#16 = selectorWord (tagOf w) (w.getLsbD 7) :=
  (or_positioned_bit (positioned_tagOf rfl) 7).symm

theorem selects_selectorWord {row : OpcodeRow} (hrow : row ∈ opcodeTable) (w : Word) :
    row.selects (selectorWord (tagOf w) (w.getLsbD 7)) = row.selects w := by
  have hmask : ∀ row ∈ opcodeTable, 0xE080#16 &&& row.mask = row.mask := by decide
  rw [OpcodeRow.selects, OpcodeRow.selects, ← and_selector, BitVec.and_assoc, hmask row hrow]

theorem dispatchIndex_selectorWord (w : Word) :
    dispatchIndex (selectorWord (tagOf w) (w.getLsbD 7)) = dispatchIndex w := by
  have htag : ∀ t b, tagOf (selectorWord t b) = t := by decide
  have hfifo : ∀ t b, (selectorWord t b).getLsbD 7 = b := by decide
  rw [dispatchIndex, htag, hfifo, dispatchIndex]

/-- Each tag, with bit 7, selects one row, and the dispatch agrees. -/
theorem one_row_of_selector (tag : BitVec 3) (fifo : Bool) : ∃ row ∈ opcodeTable,
    opcodeTable.filter (fun r => r.selects (selectorWord tag fifo)) = [row] ∧
      dispatchIndex (selectorWord tag fifo) = row.variant := by
  revert tag fifo; decide

/-- Settles O47: neither the table nor the dispatch reads more of a word than its tag and bit 7. -/
theorem oneOpcodeRowSelectsEachWord : Obligations.OneOpcodeRowSelectsEachWord := by
  refine ⟨rfl, fun w => ?_⟩
  obtain ⟨row, -, hfilter, hindex⟩ := one_row_of_selector (tagOf w) (w.getLsbD 7)
  rw [dispatchIndex_selectorWord] at hindex
  rw [List.filter_congr fun r hr => selects_selectorWord hr w] at hfilter
  exact ⟨row, hfilter, hindex, fun config i hok => (standsFor_of_decode hok).variantIndex.trans hindex⟩

end Sys2Proof

namespace Sys2Proof.Machine

open Sys2Proof.Claims

/-! ### The wires of the decoder (10_state.md R33) -/

theorem step_decode_eq_iff {s : State} {w : Word} (hc : s.call = some (.decode w)) (r : Result) :
    step s = .next (ended s r) ↔ decodeResult (Sys2Proof.decode s.config w) = r := by
  rw [step_decode hc]
  constructor
  · intro h
    injection h with h
    exact Option.some.inj (congrArg State.result h)
  · rintro rfl; rfl

/-- Settles O48: both are the decoder's answer, and the dispatch output is the index of the instruction decoded. -/
theorem decoderWiresAgreeWithDecode : Obligations.DecoderWiresAgreeWithDecode := by
  intro s w hc
  simp only [step_decode_eq_iff hc]
  cases hd : Sys2Proof.decode s.config w with
  | error e => simp [decoderPorts, hd]
  | ok i => simp [decoderPorts, hd, ← (standsFor_of_decode hd).variantIndex, and_comm]

end Sys2Proof.Machine
end

section
/-! PROOFS. The invariant of the ports and the buffer (10_state.md R28, 42_decode.md R155): it holds after reset, and
every step keeps it. -/

namespace Sys2Proof.Machine

variable {s s' : State} {r : Result}

/-- What a constructor or a decoder answers is legal on the output ports when its instruction is. -/
theorem legal_instrResult {answer : Except Error Instr}
    (h : ∀ i, answer = .ok i → i.wellFormed = true) : (instrResult answer).legal = true := by
  cases answer with
  | ok i => exact h i rfl
  | error e => rfl

theorem legal_decodeResult {answer : Except Error Instr}
    (h : ∀ i, answer = .ok i → i.wellFormed = true) : (decodeResult answer).legal = true := by
  cases answer with
  | ok i => simp [Result.legal, h i rfl]
  | error e => rfl

theorem decode_wellFormed {config : Config} {w : Word} (i : Instr)
    (h : Sys2Proof.decode config w = .ok i) : i.wellFormed = true :=
  (standsFor_of_decode h).wellFormed

/-- An operation that has ended has nothing on the input ports. -/
theorem inv_finish (hbuf : s.buffer.wf) (hr : r.legal = true) : (s.finish r).inv :=
  ⟨hbuf, fun _ h => (nomatch h), fun _ h => Option.some.inj h ▸ hr⟩

/-- Settles O51: the empty buffer has no cells, and the ports are empty. -/
theorem resetMeetsTheInvariant : Obligations.ResetMeetsTheInvariant :=
  ⟨⟨.nil, fun _ h => (nomatch h)⟩, fun _ h => (nomatch h), fun _ h => (nomatch h)⟩

/-- A step leaves the buffer in canonical form: all that is written to it goes through `writeWord`. -/
theorem step_keeps_bufferWf {c : Call} (hbuf : s.buffer.wf) (hc : s.call = some c)
    (hs : step s = .next s') : s'.buffer.wf := by
  rcases step_cases hc hs with ⟨r, rfl⟩ | ⟨-, x, -, rfl⟩ | ⟨j, earlier, m, -, -, hm, rfl⟩
  · exact hbuf
  · exact settle_wf (by simpa using hbuf) x
  · simpa using writeWord_wf hbuf hm

/-- The result that a step delivers is legal. -/
theorem step_legal_result {c : Call} (hc : s.call = some c) (hs : step s = .next s')
    (hr : s'.result = some r) : r.legal = true := by
  cases c with
  | construct o d =>
    rw [step_construct hc] at hs; cases hs; cases hr
    exact legal_instrResult fun _ => construct_wellFormed
  | encode i => rw [step_encode hc] at hs; cases hs; cases hr; rfl
  | decode w =>
    rw [step_decode hc] at hs; cases hs; cases hr
    exact legal_decodeResult decode_wellFormed
  | toAssemblyText i q => rw [step_toAssemblyText hc] at hs; cases hs; cases hr; rfl
  | encodeToBuffer i =>
    rw [step_encodeToBuffer hc] at hs
    rcases storeWord_cases hs with ⟨-, rfl⟩ | ⟨_, _, -, -, rfl⟩
    · cases hr; rfl
    · cases hr; rfl
  | decodeFromBuffer =>
    rcases Nat.lt_or_ge s.buffer.size 2 with hshort | hlong
    · rw [step_decodeFromBuffer_short hc hshort] at hs; cases hs; cases hr; rfl
    · obtain ⟨x, -, hn⟩ := step_decodeFromBuffer_long hc hlong
      rw [hn] at hs; cases hs; cases hr
      exact legal_instrResult decode_wellFormed

/-- Settles O50: a step ends its call, keeps the canonical form and delivers a legal result. -/
theorem everyStepKeepsTheInvariant : Obligations.EveryStepKeepsTheInvariant := by
  intro s s' hinv hs
  match hc : s.call with
  | none => rw [step_idle hc] at hs; cases hs; exact hinv
  | some c =>
    obtain ⟨hbuf, -, -⟩ := hinv
    obtain ⟨t, r, hfinish⟩ := step_eq_finish hc
    obtain rfl : t.finish r = s' := Host.Outcome.next.inj (hfinish.symm.trans hs)
    have hbuf' : (t.finish r).buffer.wf := step_keeps_bufferWf hbuf hc hs
    exact inv_finish hbuf' (step_legal_result hc hs rfl)

end Sys2Proof.Machine
end

section
/-! PROOFS. 60_exceptions.md R216: the kinds of error that each operation can end with. -/

namespace Sys2Proof

variable {config : Config} {e : Error}

/-- A check that has passed fails for nothing. -/
theorem ok_eq_error_kind {α : Type} {a : α} (h : Except.ok a = .error e) : e.kind = .outOfRange :=
  nomatch h

/-- The checks of a constructor fail for a side-set request or for an operand outside its range. -/
theorem afterDelaySideSet_error_kind {α : Type} {d : Nat} {k : Except Error α}
    (hk : k = .error e → e.kind = .outOfRange) (h : afterDelaySideSet d k = .error e) :
    e.kind = .outOfRange ∨ e.kind = .unsupported := by
  unfold afterDelaySideSet at h
  split at h
  · cases h; exact .inr rfl
  · exact .inl (hk h)

theorem rangeCheck_error_kind {α : Type} {bad : Prop} [Decidable bad] {field : Field} {n : Nat}
    {k : Except Error α} (hk : k = .error e → e.kind = .outOfRange)
    (h : (if bad then outOfRange field n else k) = .error e) : e.kind = .outOfRange := by
  split at h
  · cases h; rfl
  · exact hk h

theorem storedBitCount_error_kind {c : BitCountConvention} {field : Field} {n : Nat}
    (h : storedBitCount c field n = .error e) : e.kind = .outOfRange := by
  cases c with
  | oneTo32 =>
    rw [storedBitCount] at h
    exact rangeCheck_error_kind ok_eq_error_kind h
  | zeroAlias32 =>
    rw [storedBitCount] at h
    exact rangeCheck_error_kind ok_eq_error_kind h

theorem storedBitCount_map_error_kind {c : BitCountConvention} {field : Field} {n : Nat}
    {make : BitCount → Instr} (h : (storedBitCount c field n).map make = .error e) :
    e.kind = .outOfRange := by
  cases hb : storedBitCount c field n with
  | ok b => rw [hb] at h; cases h
  | error x => rw [hb] at h; cases h; exact storedBitCount_error_kind hb

/-- A constructor fails for an operand outside its range or for a side-set request (40_construction.md R100, R111). -/
theorem construct_error_kind {o : Operands} {d : Nat} (h : construct config o d = .error e) :
    e.kind = .outOfRange ∨ e.kind = .unsupported := by
  cases o with
  | jump | irq | set => exact afterDelaySideSet_error_kind (rangeCheck_error_kind ok_eq_error_kind) h
  | wait => exact afterDelaySideSet_error_kind (rangeCheck_error_kind (rangeCheck_error_kind ok_eq_error_kind)) h
  | shiftIn | shiftOut => exact afterDelaySideSet_error_kind storedBitCount_map_error_kind h
  | push | pull | move => exact afterDelaySideSet_error_kind ok_eq_error_kind h

/-- Only under `Reject` does a decode fail as `Unsupported`. -/
theorem decode_error_kind_cases {w : Word} (h : decode config w = .error e) :
    e.kind = .unrecognizedValue ∨ (e.kind = .unsupported ∧ config.unusedBits = .reject) := by
  cases hpolicy : config.unusedBits with
  | reject => exact (decode_error_kind h).imp_right (⟨·, rfl⟩)
  | ignore =>
    rw [decode_of_ignore hpolicy] at h
    exact .inl (dispatch_failsOnlyForValue config w _ (tagOf w).isLt e h)

end Sys2Proof

namespace Sys2Proof.Machine

variable {e : Error} {answer : Except Error Instr}

theorem instrResult_eq_error (h : instrResult answer = .error e) : answer = .error e := by
  cases answer with
  | ok i => cases h
  | error x => cases h; rfl

theorem decodeResult_eq_error (h : decodeResult answer = .error e) : answer = .error e := by
  cases answer with
  | ok i => cases h
  | error x => cases h; rfl

/-- Settles O53: each operation fails only by its constructor, its decoder or the length check of the buffer. -/
theorem errorsOfEachOperation : Obligations.ErrorsOfEachOperation := by
  intro s s' c e hc hs he
  cases c with
  | construct o d =>
    rw [step_construct hc] at hs; cases hs
    rcases construct_error_kind (instrResult_eq_error (Option.some.inj he)) with hk | hk
    · rw [hk]; rfl
    · rw [hk]; rfl
  | encode i => rw [step_encode hc] at hs; cases hs; cases he
  | decode w =>
    rw [step_decode hc] at hs; cases hs
    rcases decode_error_kind_cases (decodeResult_eq_error (Option.some.inj he)) with hk | ⟨hk, hr⟩
    · rw [hk]; rfl
    · rw [hk]; exact beq_iff_eq.2 hr
  | toAssemblyText i r => rw [step_toAssemblyText hc] at hs; cases hs; cases he
  | encodeToBuffer i =>
    rw [step_encodeToBuffer hc] at hs
    rcases storeWord_cases hs with ⟨-, rfl⟩ | ⟨_, _, -, -, rfl⟩
    · cases he; rfl
    · cases he
  | decodeFromBuffer =>
    rcases Nat.lt_or_ge s.buffer.size 2 with hshort | hlong
    · rw [step_decodeFromBuffer_short hc hshort] at hs; cases hs; cases he; rfl
    · obtain ⟨x, -, hn⟩ := step_decodeFromBuffer_long hc hlong
      rw [hn] at hs; cases hs
      rcases decode_error_kind_cases (instrResult_eq_error (Option.some.inj he)) with hk | ⟨hk, hr⟩
      · rw [hk]; rfl
      · rw [hk]; exact beq_iff_eq.2 hr

end Sys2Proof.Machine
end

section
/-! PROOFS. What a step runs (42_decode.md section 1), what running an instruction leaves unchanged (10_state.md R34,
43_buffers.md R173), and what the reset input drops (70_reset_and_hazards.md R240 to R242). -/

namespace Sys2Proof.Machine

variable {s : State} {i : Instr}

/-- Settles O57, by what running an instruction can do: nothing, end with a result, or end a store. -/
theorem frameOfEveryInstruction : Obligations.FrameOfEveryInstruction := by
  intro i s s' hs
  have hidle : s.call = none → s' = s := fun hc => by
    rw [exec_idle hc] at hs; cases hs; rfl
  rcases exec_cases hs with ⟨hc, rfl⟩ | ⟨r, rfl, -⟩ | ⟨j, earlier, m, hc, -, hm, rfl⟩
  · exact ⟨rfl, rfl, hc, rfl, fun _ => rfl, fun _ _ _ _ _ => rfl, fun _ => ⟨rfl, rfl⟩, hidle⟩
  · exact ⟨rfl, rfl, rfl, rfl, fun _ => rfl, fun _ _ _ _ _ => rfl, fun _ => ⟨rfl, rfl⟩, hidle⟩
  · refine ⟨by simp, by simp, rfl, by simpa using writeWord_size hm, fun hr => ?_, fun _ _ a h0 h1 => ?_,
      fun hn => absurd hc (hn j), hidle⟩
    · rw [countDraw_of_no_race (s.setBuffer m) hr]; rfl
    · simpa using read_writeWord_beyond hm (by omega)

/-- A call that comes by an instruction and leaves the state alone runs it. -/
theorem step_eq_exec {c : Call} (hc : s.call = some c) (ho : obtain c s = .instr i s) :
    step s = exec i s := by
  rw [step_call hc, ho]

theorem obtain_decode_of_ok {w : Word} (h : Sys2Proof.decode s.config w = .ok i) :
    obtain (.decode w) s = .instr i s := by
  rw [obtain_decode, h]; rfl

theorem obtain_construct_of_ok {o : Operands} {d : Nat} (h : Sys2Proof.construct s.config o d = .ok i) :
    obtain (.construct o d) s = .instr i s := by
  rw [obtain_construct, h]; rfl

theorem size_of_read_eq_some {m : Memory} {a : Nat} {b : Byte} (h : m.read a = some b) : a < m.size :=
  read_isSome.1 (Option.isSome_of_mem h)

theorem obtain_decodeFromBuffer_of_ok {b0 b1 : Byte} (hr : s.racers = []) (h0 : s.buffer.read 0 = some b0)
    (h1 : s.buffer.read 1 = some b1) (h : Sys2Proof.decode s.config (wordOfBytes b0 b1) = .ok i) :
    obtain .decodeFromBuffer s = .instr i s := by
  obtain ⟨x, hx, ho⟩ := obtain_decodeFromBuffer_long (s := s) (size_of_read_eq_some h1)
  obtain rfl : wordOfBytes b0 b1 = x :=
    Option.some.inj ((readWord_eq_some.2 ⟨b0, b1, h0, h1, rfl⟩).symm.trans hx)
  rw [ho, racedWord_of_no_race hr, h, countDraw_of_no_race s hr, settle_of_no_race s _ hr]
  rfl

/-- Settles O58: each kind of call comes by its instruction in its own way. -/
theorem aStepRunsTheInstructionOfItsCall : Obligations.AStepRunsTheInstructionOfItsCall := by
  intro s
  refine ⟨step_idle, fun w i hc hok => step_eq_exec hc (obtain_decode_of_ok hok),
    fun n i hok => step_eq_exec rfl (obtain_decode_of_ok hok),
    fun b0 b1 i hc hr h0 h1 hok => step_eq_exec hc (obtain_decodeFromBuffer_of_ok hr h0 h1 hok),
    fun o d i hc hok => step_eq_exec hc (obtain_construct_of_ok hok), ?_⟩
  rintro i r (hc | hc | hc)
  · exact step_eq_exec hc rfl
  · exact step_eq_exec hc rfl
  · exact step_eq_exec hc rfl

/-- A call presented after a reset differs from one presented without it in the output ports only. -/
theorem applyReset_withCall_eq_withResult (s : State) (c : Call) :
    { applyReset s with call := some c } = withResult { s with call := some c } none := rfl

/-- Settles O60: a step does not read the output ports, which are all that a reset changes beside the call. -/
theorem resetDropsTheOperationOnly : Obligations.ResetDropsTheOperationOnly := by
  refine ⟨⟨rfl, rfl, rfl⟩, fun s => ⟨rfl, rfl, rfl, rfl, fun c => ?_⟩⟩
  rw [applyReset_withCall_eq_withResult]
  exact step_withResult rfl none

end Sys2Proof.Machine
end

section
/-! PROOFS. 20_memory.md R53: what a race shows to a read and leaves in the buffer. -/

namespace Sys2Proof.Machine

open Sys2Proof.Claims

/-- `after` is `before` but for the bytes at indices 0 and 1, which are there and meet `P0` and `P1`. -/
def LeavesBytes (P0 P1 : Byte → Prop) (before after : Memory) : Prop :=
  ∃ l0 l1, after.read 0 = some l0 ∧ after.read 1 = some l1 ∧ P0 l0 ∧ P1 l1 ∧
    ∀ a, a ≠ 0 → a ≠ 1 → after.read a = before.read a

theorem leavesBytes_writeWord {P0 P1 : Byte → Prop} {m m' : Memory} {w : Word} (hm : m.wf)
    (h : m.writeWord w = some m') (h0 : P0 (lowByte w)) (h1 : P1 (highByte w)) :
    LeavesBytes P0 P1 m m' :=
  ⟨lowByte w, highByte w, read_writeWord_zero hm h, read_writeWord_one hm h, h0, h1,
    fun _ ha0 ha1 => read_writeWord_beyond h (by omega)⟩

section

variable {s : State} {b0 b1 : Byte}

/-- The candidates of a raced read are those of R53, byte by byte. -/
theorem racing_of_candidate {x : Word} (hx : x ∈ [wordOfBytes b0 b1] ++ s.racers) :
    racing0 s b0 (lowByte x) ∧ racing1 s b1 (highByte x) := by
  rcases List.mem_cons.1 hx with rfl | hx
  · exact ⟨.inl (lowByte_wordOfBytes b0 b1), .inl (highByte_wordOfBytes b0 b1)⟩
  · exact ⟨.inr ⟨x, hx, toNat_lowByte x⟩, .inr ⟨x, hx, toNat_highByte x⟩⟩

/-- What a raced read finds, or leaves, has each of its bytes from the candidates. -/
theorem racing_racedWord : racing0 s b0 (lowByte (racedWord s (wordOfBytes b0 b1) [])) ∧
    racing1 s b1 (highByte (racedWord s (wordOfBytes b0 b1) [])) := by
  obtain ⟨⟨x, hx, hlow⟩, ⟨y, hy, hhigh⟩⟩ := racedWord_candidates s (wordOfBytes b0 b1) []
  rw [hlow, hhigh]
  exact ⟨(racing_of_candidate hx).1, (racing_of_candidate hy).2⟩

/-- What a raced store leaves has each of its bytes from its own word or from the candidates. -/
theorem racing_racedWord_store (w : Word) :
    ((lowByte (racedWord s w [wordOfBytes b0 b1])).toNat = w.toNat % 256 ∨
      racing0 s b0 (lowByte (racedWord s w [wordOfBytes b0 b1]))) ∧
    ((highByte (racedWord s w [wordOfBytes b0 b1])).toNat = w.toNat / 256 ∨
      racing1 s b1 (highByte (racedWord s w [wordOfBytes b0 b1]))) := by
  obtain ⟨⟨x, hx, hlow⟩, ⟨y, hy, hhigh⟩⟩ := racedWord_candidates s w [wordOfBytes b0 b1]
  rw [hlow, hhigh]
  refine ⟨?_, ?_⟩
  · rcases List.mem_cons.1 hx with rfl | hx
    · exact .inl (toNat_lowByte x)
    · exact .inr (racing_of_candidate hx).1
  · rcases List.mem_cons.1 hy with rfl | hy
    · exact .inl (toNat_highByte y)
    · exact .inr (racing_of_candidate hy).2

theorem countDraw_eq (s : State) : s.countDraw = { s with draws := s.countDraw.draws } := by
  unfold State.countDraw; split <;> rfl

/-- A read, raced or not, changes no field but the buffer and the counter, and leaves candidates in the buffer. -/
theorem settle_leavesBytes (hbuf : s.buffer.wf) (h0 : s.buffer.read 0 = some b0)
    (h1 : s.buffer.read 1 = some b1) : ∃ m d,
    s.countDraw.settle (wordOfBytes b0 b1) = { s with buffer := m, draws := d } ∧
      LeavesBytes (racing0 s b0) (racing1 s b1) s.buffer m := by
  have hsize : 2 ≤ s.countDraw.buffer.size := by
    rw [countDraw_buffer]
    exact size_of_read_eq_some h1
  rcases settle_cases hsize (wordOfBytes b0 b1) with ⟨-, hsettle⟩ | ⟨-, m, hm, hsettle⟩
  · refine ⟨s.buffer, s.countDraw.draws, hsettle.trans (countDraw_eq s), b0, b1, h0, h1, .inl rfl, .inl rfl,
      fun _ _ _ => rfl⟩
  · have hraced := racing_racedWord (s := s.countDraw) (b0 := b0) (b1 := b1)
    simp only [racing0, racing1, countDraw_racers, countDraw_buffer] at hraced hm
    refine ⟨m, s.countDraw.draws + 1, ?_, leavesBytes_writeWord hbuf hm hraced.1 hraced.2⟩
    rw [hsettle, countDraw_eq s]

end

/-- Settles O40: the bytes read and left are those of `racedWord`, whatever the free choice. -/
theorem racesShowAndLeaveCandidates : Obligations.RacesShowAndLeaveCandidates := by
  intro s b0 b1 hbuf h0 h1
  have hsize : 2 ≤ s.buffer.size := size_of_read_eq_some h1
  have hword : s.buffer.readWord = some (wordOfBytes b0 b1) := readWord_eq_some.2 ⟨b0, b1, h0, h1, rfl⟩
  refine ⟨fun hc => ?_, fun i j hc => ?_⟩
  · obtain ⟨x, hx, hstep⟩ := step_decodeFromBuffer_long hc hsize
    obtain rfl : wordOfBytes b0 b1 = x := Option.some.inj (hword.symm.trans hx)
    obtain ⟨m, d, hsettle, l0, l1, hleft⟩ := settle_leavesBytes hbuf h0 h1
    obtain ⟨hlow, hhigh⟩ := racing_racedWord (s := s) (b0 := b0) (b1 := b1)
    rw [hsettle, ← wordOfBytes_low_high (racedWord s (wordOfBytes b0 b1) [])] at hstep
    exact ⟨_, _, _, m, d, l0, l1, hstep, hlow, hhigh, fun i hi => congrArg instrResult hi,
      fun e he => congrArg instrResult he, hleft⟩
  · rw [exec_encodeToBuffer hc]
    obtain ⟨earlier, m, he, hm, hstore⟩ := storeWord_long (w := encode i) hsize
    obtain rfl : wordOfBytes b0 b1 = earlier := Option.some.inj (hword.symm.trans he)
    obtain ⟨hlow, hhigh⟩ := racing_racedWord_store (s := s) (b0 := b0) (b1 := b1) (encode i)
    obtain ⟨l0, l1, hleft⟩ := leavesBytes_writeWord
      (P0 := fun l => l.toNat = (encode i).toNat % 256 ∨ racing0 s b0 l)
      (P1 := fun l => l.toNat = (encode i).toNat / 256 ∨ racing1 s b1 l) hbuf hm hlow hhigh
    rw [countDraw_eq (s.setBuffer m)] at hstore
    exact ⟨m, _, l0, l1, hstore, hleft⟩

end Sys2Proof.Machine
end

section
/-! PROOFS. 44_assembly_text.md R180 and R181, 30_encoding.md R65 to R73: every text is one line of printable characters,
the default tokens, and words written out. -/

namespace Sys2Proof

open Sys2Proof.Claims

variable {s t : AsciiString}

theorem printable_nil : printable [] := fun _ h => (nomatch h)

theorem printable_append (hs : printable s) (ht : printable t) : printable (s ++ t) :=
  List.forall_mem_append.2 ⟨hs, ht⟩

theorem printable_ite {c : Prop} [Decidable c] (hs : printable s) (ht : printable t) :
    printable (if c then s else t) := by
  split
  · exact hs
  · exact ht

/-- A literal is printable when each of its characters is, by evaluation. -/
theorem printable_of_all (h : t.all (fun c => 32 ≤ c.val && c.val ≤ 126) = true) : printable t := by
  intro c hc
  simpa using List.all_eq_true.1 h c hc

theorem printable_decimal (n : Nat) : printable (decimal n) := by
  intro c hc
  have hbounds := (isDecimal_decimal n).bounds c hc
  omega

theorem printable_targetText {r : Resolver} (hr : printableResolver r) (target : Addr5) :
    printable (targetText r target) := by
  cases r with
  | none => exact printable_decimal _
  | fixed text => exact hr
  | map table => exact hr _ (Vector.mem_toList_iff.2 (Vector.getElem_mem target.toFin.isLt))

theorem printable_irqIndexText (index : Index5) : printable (irqIndexText index) :=
  printable_append (printable_decimal _) (printable_ite (printable_of_all rfl) printable_nil)

theorem printable_blockText (block : Bool) : printable (blockText block) :=
  printable_ite (printable_of_all rfl) (printable_of_all rfl)

theorem printable_irqOperationText (op : IrqOperation) : printable (irqOperationText op) := by
  cases op <;> exact printable_of_all rfl

/-- A printable text that is not empty. -/
def PrintableLine (text : AsciiString) : Prop := printable text ∧ text ≠ []

theorem PrintableLine.append (hs : PrintableLine s) (ht : printable t) : PrintableLine (s ++ t) :=
  ⟨printable_append hs.1 ht, List.append_ne_nil_of_left_ne_nil hs.2 t⟩

/-- Each text begins with its mnemonic, which is not empty. -/
theorem printableLine_toAssemblyText {tokens : Tokens} {r : Resolver} (htokens : printableTokens tokens)
    (hr : printableResolver r) (i : Instr) : PrintableLine (toAssemblyText tokens r i) := by
  obtain ⟨hcondition, hwait, hin, hout, hmovTo, hmovOp, hmovFrom, hset⟩ := htokens
  have hspace : printable (ascii " ") := printable_of_all rfl
  have hcomma : printable (ascii ", ") := printable_of_all rfl
  cases i with
  | jump c target =>
    have hmnemonic : PrintableLine (ascii "jmp ") := ⟨printable_of_all rfl, nofun⟩
    exact (hmnemonic.append (hcondition c)).append (printable_targetText hr target)
  | wait p u n =>
    have hmnemonic : PrintableLine (ascii "wait ") := ⟨printable_of_all rfl, nofun⟩
    exact ((((hmnemonic.append (printable_decimal _)).append hspace).append (hwait u)).append hspace).append
      (printable_ite (printable_irqIndexText n) (printable_decimal _))
  | shiftIn u n =>
    have hmnemonic : PrintableLine (ascii "in ") := ⟨printable_of_all rfl, nofun⟩
    exact ((hmnemonic.append (hin u)).append hcomma).append (printable_decimal _)
  | shiftOut d n =>
    have hmnemonic : PrintableLine (ascii "out ") := ⟨printable_of_all rfl, nofun⟩
    exact ((hmnemonic.append (hout d)).append hcomma).append (printable_decimal _)
  | push f b =>
    have hmnemonic : PrintableLine (ascii "push ") := ⟨printable_of_all rfl, nofun⟩
    exact (hmnemonic.append (printable_ite (printable_of_all rfl) printable_nil)).append (printable_blockText b)
  | pull e b =>
    have hmnemonic : PrintableLine (ascii "pull ") := ⟨printable_of_all rfl, nofun⟩
    exact (hmnemonic.append (printable_ite (printable_of_all rfl) printable_nil)).append (printable_blockText b)
  | move d o u =>
    have hmnemonic : PrintableLine (ascii "mov ") := ⟨printable_of_all rfl, nofun⟩
    exact (((hmnemonic.append (hmovTo d)).append hcomma).append (hmovOp o)).append (hmovFrom u)
  | irq c wt n =>
    have hmnemonic : PrintableLine (ascii "irq ") := ⟨printable_of_all rfl, nofun⟩
    exact ((hmnemonic.append (printable_irqOperationText _)).append hspace).append (printable_irqIndexText n)
  | set d v =>
    have hmnemonic : PrintableLine (ascii "set ") := ⟨printable_of_all rfl, nofun⟩
    exact ((hmnemonic.append (hset d)).append hcomma).append (printable_decimal _)

/-- Settles O36: a text is its mnemonic, which is not empty, and printable parts after it. -/
theorem textIsOnePrintableLine : Obligations.TextIsOnePrintableLine :=
  fun _ _ i htokens hr => printableLine_toAssemblyText htokens hr i

/-- Settles O34: the two tables are written out alike. -/
theorem defaultTokensAreThoseOfTheTable : Obligations.DefaultTokensAreThoseOfTheTable := rfl

/-- Settles O59: each word is the encoding of its instruction, which the decoder gives back. -/
theorem wordsWrittenOutDecodeAsTheyStand : Obligations.WordsWrittenOutDecodeAsTheyStand :=
  ⟨decode_encode _ (i := .jump .xPostDec 31) rfl, decode_encode _ (i := .wait 1 .irq 19) rfl,
    decode_encode _ (i := .shiftIn .x 32) rfl, decode_encode _ (i := .shiftOut .exec 16) rfl,
    decode_encode _ (i := .push false true) rfl, decode_encode _ (i := .pull false true) rfl,
    decode_encode _ (i := .move .osr .bitReverse .isr) rfl, decode_encode _ (i := .irq false false 19) rfl,
    decode_encode _ (i := .set .pinDirs 1) rfl⟩

end Sys2Proof
end
